-- ==== Sys2Proof/Word.lean ====
section
/-! DEFINITION. The two word types of the unit and nothing else.
A data word is 64 bits (R5, XLEN), a command word 32 bits (R5, CMDW; R60). Bit 0 is the least significant bit (R6). -/

namespace Sys2Proof

/-- A data word: what the ports `A`, `B`, `RES` and each lane of `VIN` carry (R5, R20). -/
abbrev Word := BitVec 64

/-- A command word: what the port `CMD` carries (R60). -/
abbrev CmdWord := BitVec 32

end Sys2Proof
end

