-- ==== Sys2Proof/Syntax.lean ====
section
/-! DEFINITION. The commands, one constructor for each of the nineteen rows of R63 (and of opcode_table.json).
The data operands are not part of a command: they are on the ports `A`, `B`, `VIN` (R60, R66). -/

namespace Sys2Proof

/-- The legal values of the field `cw` (R62): automatic, or a named container. -/
inductive ContainerChoice where
  | auto | c8 | c16 | c32 | c64
  deriving DecidableEq, Repr

/-- The nine selectors of `layout_read` (R88). -/
inductive Selector where
  | n | cbits | sumw | lomask | himask | validbits | width | offset | fieldmask
  deriving DecidableEq, Repr

/-- The selectors 6 to 8 name an array register and take a field index (R87, R88). -/
def Selector.indexed : Selector → Bool
  | .n | .cbits | .sumw | .lomask | .himask | .validbits => false
  | .width | .offset | .fieldmask => true

/-- The commands of the unit (R63). -/
inductive Instr where
  /-- `computeLayout`, op 0x01: `n` fields, container choice `cw` (R80). -/
  | computeLayout (n : BitVec 7) (cw : ContainerChoice)
  /-- `layout_read`, op 0x02: selector and field index (R87). -/
  | layoutRead (sel : Selector) (i : BitVec 7)
  /-- `pack`, op 0x10 (R100). -/
  | pack
  /-- `unpack_unsigned`, op 0x11: field index (R101). -/
  | unpackUnsigned (i : BitVec 7)
  /-- `unpack_signed`, op 0x12: field index (R102). -/
  | unpackSigned (i : BitVec 7)
  /-- `equal`, op 0x13 (R103). -/
  | equal
  /-- `add_wrap`, op 0x20 (R120). -/
  | addWrap
  /-- `sub_wrap`, op 0x21 (R121). -/
  | subWrap
  /-- `add_unsigned_saturate`, op 0x30 (R132). -/
  | addUnsignedSaturate
  /-- `sub_unsigned_saturate`, op 0x31 (R134). -/
  | subUnsignedSaturate
  /-- `add_signed_saturate`, op 0x32 (R136). -/
  | addSignedSaturate
  /-- `sub_signed_saturate`, op 0x33 (R138). -/
  | subSignedSaturate
  /-- `min_unsigned`, op 0x40 (R152). -/
  | minUnsigned
  /-- `max_unsigned`, op 0x41 (R153). -/
  | maxUnsigned
  /-- `min_signed`, op 0x42 (R154). -/
  | minSigned
  /-- `max_signed`, op 0x43 (R155). -/
  | maxSigned
  /-- `slice`, op 0x50: fields `first` to `last - 1` (R165). -/
  | slice (first last : BitVec 7)
  /-- `shift_left`, op 0x60 (R175). -/
  | shiftLeft
  /-- `shift_right_unsigned`, op 0x61 (R176). -/
  | shiftRightUnsigned
  deriving DecidableEq, Repr

end Sys2Proof
end

