-- ==== Sys2Proof/WellFormed.lean ====
section
/-! DEFINITION. Which commands have a legal command word (R64). Reserved opcodes, containers and selectors cannot be
written as an `Instr`; the one constraint left to check is that a scalar selector takes no index. Values of `n`, `i`,
`first`, `last` that are wrong for the layout are NOT ill formed: they are configuration errors with codes of their
own (R64, last sentence). -/

namespace Sys2Proof

/-- R64: `op = 0x02`, `f2 <= 5` and `f1 != 0` is illegal ("the scalar selectors take no index"). -/
def Instr.wellFormed : Instr → Bool
  | .layoutRead sel i => sel.indexed || i == 0
  | .computeLayout _ _ => true
  | .pack => true
  | .unpackUnsigned _ => true
  | .unpackSigned _ => true
  | .equal => true
  | .addWrap => true
  | .subWrap => true
  | .addUnsignedSaturate => true
  | .subUnsignedSaturate => true
  | .addSignedSaturate => true
  | .subSignedSaturate => true
  | .minUnsigned => true
  | .maxUnsigned => true
  | .minSigned => true
  | .maxSigned => true
  | .slice _ _ => true
  | .shiftLeft => true
  | .shiftRightUnsigned => true

end Sys2Proof
end

