-- ==== Sys2Proof/Decode.lean ====
section
/-! DEFINITION. The command word: its fields (R61), the total decoder (R65), the encoder (R61, R63), and the opcode
table as masks and matches (R65, opcode_table.json). -/

namespace Sys2Proof

/-- Why a command word is illegal (R64). Every reason raises the one fault `E_ILLCMD`. -/
inductive Illegal where
  /-- `CMD[31:25]` is not zero. -/
  | reservedBits
  /-- `op` is none of the nineteen values of R63. -/
  | unknownOpcode
  /-- `f1` is not zero in a command that does not use it. -/
  | unusedF1
  /-- `f2` is not zero in a command that does not use it. -/
  | unusedF2
  /-- `cw` is not zero in a command other than `computeLayout`. -/
  | unusedCw
  /-- `computeLayout` with `cw` 5, 6 or 7. -/
  | reservedContainer
  /-- `layout_read` with a selector above 8. -/
  | reservedSelector
  /-- `layout_read` of a scalar selector with an index. -/
  | indexOnScalarSelector
  deriving DecidableEq, Repr

/-- `CMD[7:0]`, the opcode (R61). -/
def opField (w : CmdWord) : BitVec 8 := w.extractLsb' 0 8
/-- `CMD[14:8]`, the first small operand (R61). -/
def f1Field (w : CmdWord) : BitVec 7 := w.extractLsb' 8 7
/-- `CMD[21:15]`, the second small operand (R61). -/
def f2Field (w : CmdWord) : BitVec 7 := w.extractLsb' 15 7
/-- `CMD[24:22]`, the container choice (R61). -/
def cwField (w : CmdWord) : BitVec 3 := w.extractLsb' 22 3
/-- `CMD[31:25]`, zero in every command (R61). -/
def zeroField (w : CmdWord) : BitVec 7 := w.extractLsb' 25 7

/-- The table of `cw` (R62); 5, 6 and 7 are reserved. -/
def containerChoiceOf? (cw : BitVec 3) : Option ContainerChoice :=
  if cw = 0 then some .auto
  else if cw = 1 then some .c8
  else if cw = 2 then some .c16
  else if cw = 3 then some .c32
  else if cw = 4 then some .c64
  else none

/-- The selector map (R88); 9 to 127 are reserved. -/
def selectorOf? (f2 : BitVec 7) : Option Selector :=
  if f2 = 0 then some .n
  else if f2 = 1 then some .cbits
  else if f2 = 2 then some .sumw
  else if f2 = 3 then some .lomask
  else if f2 = 4 then some .himask
  else if f2 = 5 then some .validbits
  else if f2 = 6 then some .width
  else if f2 = 7 then some .offset
  else if f2 = 8 then some .fieldmask
  else none

/-- The fourteen commands whose word has no operand field (R63). -/
def plainCommandOf? (op : BitVec 8) : Option Instr :=
  if op = 0x10 then some .pack
  else if op = 0x13 then some .equal
  else if op = 0x20 then some .addWrap
  else if op = 0x21 then some .subWrap
  else if op = 0x30 then some .addUnsignedSaturate
  else if op = 0x31 then some .subUnsignedSaturate
  else if op = 0x32 then some .addSignedSaturate
  else if op = 0x33 then some .subSignedSaturate
  else if op = 0x40 then some .minUnsigned
  else if op = 0x41 then some .maxUnsigned
  else if op = 0x42 then some .minSigned
  else if op = 0x43 then some .maxSigned
  else if op = 0x60 then some .shiftLeft
  else if op = 0x61 then some .shiftRightUnsigned
  else none

/-- `computeLayout` (R65, case 0x01). -/
def decodeComputeLayout (f1 f2 : BitVec 7) (cw : BitVec 3) : Except Illegal Instr :=
  if f2 ≠ 0 then .error .unusedF2
  else match containerChoiceOf? cw with
    | none => .error .reservedContainer
    | some c => .ok (.computeLayout f1 c)

/-- `layout_read` (R65, case 0x02). -/
def decodeLayoutRead (f1 f2 : BitVec 7) (cw : BitVec 3) : Except Illegal Instr :=
  if cw ≠ 0 then .error .unusedCw
  else match selectorOf? f2 with
    | none => .error .reservedSelector
    | some sel =>
      if sel.indexed = false ∧ f1 ≠ 0 then .error .indexOnScalarSelector
      else .ok (.layoutRead sel f1)

/-- A command that uses `f1` alone (R65, cases 0x11 and 0x12). -/
def decodeIndexed (mk : BitVec 7 → Instr) (f1 f2 : BitVec 7) (cw : BitVec 3) : Except Illegal Instr :=
  if f2 ≠ 0 then .error .unusedF2
  else if cw ≠ 0 then .error .unusedCw
  else .ok (mk f1)

/-- `slice` (R65, case 0x50). -/
def decodeSlice (f1 f2 : BitVec 7) (cw : BitVec 3) : Except Illegal Instr :=
  if cw ≠ 0 then .error .unusedCw
  else .ok (.slice f1 f2)

/-- A command whose word has no operand field, or an unknown opcode (R65, last two cases). -/
def decodePlain (op : BitVec 8) (f1 f2 : BitVec 7) (cw : BitVec 3) : Except Illegal Instr :=
  match plainCommandOf? op with
  | none => .error .unknownOpcode
  | some i =>
    if f1 ≠ 0 then .error .unusedF1
    else if f2 ≠ 0 then .error .unusedF2
    else if cw ≠ 0 then .error .unusedCw
    else .ok i

/-- The decoder by its fields, once `CMD[31:25]` is zero (R65). -/
def decodeFields (op : BitVec 8) (f1 f2 : BitVec 7) (cw : BitVec 3) : Except Illegal Instr :=
  if op = 0x01 then decodeComputeLayout f1 f2 cw
  else if op = 0x02 then decodeLayoutRead f1 f2 cw
  else if op = 0x11 then decodeIndexed .unpackUnsigned f1 f2 cw
  else if op = 0x12 then decodeIndexed .unpackSigned f1 f2 cw
  else if op = 0x50 then decodeSlice f1 f2 cw
  else decodePlain op f1 f2 cw

/-- R65: "The decoder is total: it gives every 32-bit word exactly one verdict". -/
def decode (w : CmdWord) : Except Illegal Instr :=
  if zeroField w ≠ 0 then .error .reservedBits
  else decodeFields (opField w) (f1Field w) (f2Field w) (cwField w)

/-! ### The encoder -/

/-- The opcode column of R63. -/
def Instr.opcode : Instr → BitVec 8
  | .computeLayout _ _ => 0x01
  | .layoutRead _ _ => 0x02
  | .pack => 0x10
  | .unpackUnsigned _ => 0x11
  | .unpackSigned _ => 0x12
  | .equal => 0x13
  | .addWrap => 0x20
  | .subWrap => 0x21
  | .addUnsignedSaturate => 0x30
  | .subUnsignedSaturate => 0x31
  | .addSignedSaturate => 0x32
  | .subSignedSaturate => 0x33
  | .minUnsigned => 0x40
  | .maxUnsigned => 0x41
  | .minSigned => 0x42
  | .maxSigned => 0x43
  | .slice _ _ => 0x50
  | .shiftLeft => 0x60
  | .shiftRightUnsigned => 0x61

/-- The `cw` column of R62. -/
def ContainerChoice.code : ContainerChoice → BitVec 3
  | .auto => 0
  | .c8 => 1
  | .c16 => 2
  | .c32 => 3
  | .c64 => 4

/-- The `sel` column of R88. -/
def Selector.code : Selector → BitVec 7
  | .n => 0
  | .cbits => 1
  | .sumw => 2
  | .lomask => 3
  | .himask => 4
  | .validbits => 5
  | .width => 6
  | .offset => 7
  | .fieldmask => 8

/-- R61: "The word is assembled as `CMD = op | (f1 << 8) | (f2 << 15) | (cw << 22)`." -/
def assembleWord (op : BitVec 8) (f1 f2 : BitVec 7) (cw : BitVec 3) : CmdWord :=
  op.setWidth 32 ||| (f1.setWidth 32 <<< 8) ||| (f2.setWidth 32 <<< 15) ||| (cw.setWidth 32 <<< 22)

/-- The command word of a command (R63): the columns `f1`, `f2` and `cw` hold its operands, the others are zero. -/
def encode (i : Instr) : CmdWord :=
  match i with
  | .computeLayout n cw => assembleWord i.opcode n 0 cw.code
  | .layoutRead sel k => assembleWord i.opcode k sel.code 0
  | .unpackUnsigned k => assembleWord i.opcode k 0 0
  | .unpackSigned k => assembleWord i.opcode k 0 0
  | .slice first last => assembleWord i.opcode first last 0
  | .pack => assembleWord i.opcode 0 0 0
  | .equal => assembleWord i.opcode 0 0 0
  | .addWrap => assembleWord i.opcode 0 0 0
  | .subWrap => assembleWord i.opcode 0 0 0
  | .addUnsignedSaturate => assembleWord i.opcode 0 0 0
  | .subUnsignedSaturate => assembleWord i.opcode 0 0 0
  | .addSignedSaturate => assembleWord i.opcode 0 0 0
  | .subSignedSaturate => assembleWord i.opcode 0 0 0
  | .minUnsigned => assembleWord i.opcode 0 0 0
  | .maxUnsigned => assembleWord i.opcode 0 0 0
  | .minSigned => assembleWord i.opcode 0 0 0
  | .maxSigned => assembleWord i.opcode 0 0 0
  | .shiftLeft => assembleWord i.opcode 0 0 0
  | .shiftRightUnsigned => assembleWord i.opcode 0 0 0

/-! ### The opcode table -/

/-- The mnemonic of a command, spelled as R63 spells it. -/
def Instr.mnemonic : Instr → String
  | .computeLayout _ _ => "computeLayout"
  | .layoutRead _ _ => "layout_read"
  | .pack => "pack"
  | .unpackUnsigned _ => "unpack_unsigned"
  | .unpackSigned _ => "unpack_signed"
  | .equal => "equal"
  | .addWrap => "add_wrap"
  | .subWrap => "sub_wrap"
  | .addUnsignedSaturate => "add_unsigned_saturate"
  | .subUnsignedSaturate => "sub_unsigned_saturate"
  | .addSignedSaturate => "add_signed_saturate"
  | .subSignedSaturate => "sub_signed_saturate"
  | .minUnsigned => "min_unsigned"
  | .maxUnsigned => "max_unsigned"
  | .minSigned => "min_signed"
  | .maxSigned => "max_signed"
  | .slice _ _ => "slice"
  | .shiftLeft => "shift_left"
  | .shiftRightUnsigned => "shift_right_unsigned"

/-- The value constraints that a mask cannot express (R65, the rows' `constraints`). -/
inductive RowConstraint where
  | always
  /-- `cw <= 4`. -/
  | containerLegal
  /-- `f2 <= 8`, and `f1 == 0` if `f2 <= 5`. -/
  | selectorLegal
  deriving DecidableEq, Repr

/-- One row of opcode_table.json. -/
structure OpRow where
  mnemonic : String
  value : CmdWord
  mask : CmdWord
  constraint : RowConstraint
  deriving DecidableEq, Repr

/-- Whether a word meets a row's value constraint. -/
def RowConstraint.holds (c : RowConstraint) (w : CmdWord) : Bool :=
  match c with
  | .always => true
  | .containerLegal => (cwField w).toNat ≤ 4
  | .selectorLegal => (f2Field w).toNat ≤ 8 && (decide (5 < (f2Field w).toNat) || f1Field w == 0)

/-- R65: "`(CMD & mask) == match` for the row, plus the two value constraints". -/
def OpRow.accepts (r : OpRow) (w : CmdWord) : Bool :=
  w &&& r.mask == r.value && r.constraint.holds w

/-- The rows that have an operand field in the word. -/
def operandRows : List OpRow :=
  [⟨"computeLayout", 0x00000001, 0xFE3F80FF, .containerLegal⟩,
   ⟨"layout_read", 0x00000002, 0xFFC000FF, .selectorLegal⟩,
   ⟨"unpack_unsigned", 0x00000011, 0xFFFF80FF, .always⟩,
   ⟨"unpack_signed", 0x00000012, 0xFFFF80FF, .always⟩,
   ⟨"slice", 0x00000050, 0xFFC000FF, .always⟩]

/-- The rows whose word is one number. -/
def plainRows : List OpRow :=
  [⟨"pack", 0x00000010, 0xFFFFFFFF, .always⟩,
   ⟨"equal", 0x00000013, 0xFFFFFFFF, .always⟩,
   ⟨"add_wrap", 0x00000020, 0xFFFFFFFF, .always⟩,
   ⟨"sub_wrap", 0x00000021, 0xFFFFFFFF, .always⟩,
   ⟨"add_unsigned_saturate", 0x00000030, 0xFFFFFFFF, .always⟩,
   ⟨"sub_unsigned_saturate", 0x00000031, 0xFFFFFFFF, .always⟩,
   ⟨"add_signed_saturate", 0x00000032, 0xFFFFFFFF, .always⟩,
   ⟨"sub_signed_saturate", 0x00000033, 0xFFFFFFFF, .always⟩,
   ⟨"min_unsigned", 0x00000040, 0xFFFFFFFF, .always⟩,
   ⟨"max_unsigned", 0x00000041, 0xFFFFFFFF, .always⟩,
   ⟨"min_signed", 0x00000042, 0xFFFFFFFF, .always⟩,
   ⟨"max_signed", 0x00000043, 0xFFFFFFFF, .always⟩,
   ⟨"shift_left", 0x00000060, 0xFFFFFFFF, .always⟩,
   ⟨"shift_right_unsigned", 0x00000061, 0xFFFFFFFF, .always⟩]

/-- opcode_table.json: nineteen rows. -/
def opcodeRows : List OpRow := operandRows ++ plainRows

/-- The instruction the decoder reads from the bits of a table row. A command word is 32 bits (R60), so a longer
word has no verdict. -/
def decodeTableWord (nbits w : Nat) : Option Instr :=
  if 32 < nbits then none
  else match decode (BitVec.ofNat 32 (w % 2 ^ nbits)) with
    | .ok i => some i
    | .error _ => none

end Sys2Proof
end

