-- ==== Sys2Proof/Config.lean ====
section
/-! DEFINITION. What is fixed for the unit (R5), and the free values: what the spec calls unspecified.
A free value has no body, so no proof can see which value it is (93_implementation_defined.md U8, U9: "any value"). -/

namespace Sys2Proof

/-- NMAX: the largest number of fields, and the number of lanes of `VIN` (R5, R20). -/
abbrev Config.nmax : Nat := 64

/-- CONTAINERS: the legal values of ContainerBits (R5, R26). -/
def Config.containers : List Nat := [8, 16, 32, 64]

/-- The places whose content the spec leaves unspecified at some moment. One constructor per register (or lane of an
input port), so that no relation between two of them can be proved. -/
inductive FreePlace where
  /-- `RES` after a fault (R194, U9) or after `RESET` (R41, R220). -/
  | res
  /-- The scalar layout registers after `RESET` (R41, U8). -/
  | ln | lc | lsum | llo | lhi | lvm
  /-- The array registers: entries at an index `LN` or above after `computeLayout` (R83), all entries after `RESET`. -/
  | lw (i : Nat) | loff (i : Nat) | lfm (i : Nat)
  /-- Data inputs a program line gives no value to (R68, U12). -/
  | portA | portB | portV (i : Nat)
  deriving DecidableEq, Repr

/-- The free values: the `k`-th unspecified content of a place, `k` counted by `State.freeCount`. A narrower register
takes the low bits. Log entry 2. -/
opaque Config.freeValue : FreePlace → Nat → Word

end Sys2Proof
end

