-- ==== Sys2Proof/Machine/State.lean ====
section
/-! DEFINITION. The architectural state: every register of R21, the ports of R20, the host's queue of presentations
(R9, R223), the counter of the free values, and the state after reset (R41). -/

namespace Sys2Proof.Machine

/-- The input ports of R20, as the host drives them at one presentation. -/
structure Ports where
  /-- The command word. -/
  CMD : CmdWord
  /-- The first data word. -/
  A : Word
  /-- The second data word. -/
  B : Word
  /-- The vector of 64 lanes. -/
  VIN : Vector Word 64
  /-- The reset input (R220). -/
  RESET : Bool
  deriving DecidableEq, Repr

/-- The nine layout registers beside `LVALID` (R21, R23 to R32). -/
structure Layout where
  /-- Field count (R24). -/
  LN : BitVec 7
  /-- Field widths (R25). -/
  LW : Vector (BitVec 7) 64
  /-- ContainerBits (R26). -/
  LC : BitVec 7
  /-- Total width (R27). -/
  LSUM : BitVec 7
  /-- Field offsets (R28). -/
  LOFF : Vector (BitVec 6) 64
  /-- Field masks (R30). -/
  LFM : Vector Word 64
  /-- `loOrderMask` (R31). -/
  LLO : Word
  /-- `hiOrderMask` (R32). -/
  LHI : Word
  /-- `validBits` (R29). -/
  LVM : Word
  deriving DecidableEq, Repr

/-- The state of the unit (R21) and of its environment. -/
structure State where
  /-- 1 when the layout registers hold a compiled layout (R23). -/
  LVALID : Bool
  /-- The nine other layout registers. -/
  lay : Layout
  /-- The sticky fault bit (R34). -/
  FAULT : Bool
  /-- The code of the first fault, 0 when none (R34, R191). -/
  ERR : BitVec 4
  /-- The result of the last successful command (R35). -/
  RES : Word
  /-- 1 when `RES` holds the result of the last command taken (R35). -/
  RVALID : Bool
  /-- The input ports as sampled at the last presentation (R20). -/
  ports : Ports
  /-- What the host will present, oldest first (R9, R37, R223; log entry 1). -/
  pending : List Ports
  /-- The model's own: how many free values have been drawn (log entry 2). -/
  freeCount : Nat
  deriving DecidableEq, Repr

/-- The output ports of R20, "each showing the register of the same name at all times". -/
structure Outputs where
  RES : Word
  RVALID : Bool
  LVALID : Bool
  FAULT : Bool
  ERR : BitVec 4
  deriving DecidableEq, Repr

/-- The output pins (R20). -/
def State.outputs (s : State) : Outputs :=
  ⟨s.RES, s.RVALID, s.LVALID, s.FAULT, s.ERR⟩

/-- The fault codes 1 to 7 of R191. A fault of the unit is a NEXT state (R194), never a stop of the model. -/
inductive ErrCode where
  /-- 1: the command word is illegal. -/
  | illcmd
  /-- 2: a command other than `computeLayout` while `LVALID = 0`. -/
  | nolayout
  /-- 3: `computeLayout` with `n = 0`. -/
  | empty
  /-- 4: `computeLayout` with a width equal to 0. -/
  | zerow
  /-- 5: `computeLayout` whose widths do not fit, or with more than 64 fields. -/
  | toowide
  /-- 6: a field index at `LN` or above. -/
  | index
  /-- 7: `slice` with `first >= last` or `last > LN`. -/
  | slice
  deriving DecidableEq, Repr

/-- The reasons the MODEL stops with a fault: there is none, and so no constructor. R227: "every command completes";
every fault the spec describes is the next state of R194. Safe: nothing raises it. -/
inductive Fault where
  deriving DecidableEq, Repr

/-- The reasons the model has no meaning for a command. -/
inductive Refusal where
  /-- Raised by an arm of `exec` whose command has no meaning yet; no arm does. Safe. -/
  | notModelled (mnemonic : String)
  deriving DecidableEq, Repr

/-- Ports at which nothing is driven yet: the inputs have no reset value, zero is a DESIGN CHOICE (log entry 3). -/
def Ports.idle : Ports :=
  { CMD := 0, A := 0, B := 0, VIN := Vector.replicate 64 0, RESET := false }

/-- The nine layout registers at power-on: R41 leaves them unspecified, zero is a DESIGN CHOICE (log entry 3). -/
def Layout.cleared : Layout :=
  { LN := 0, LW := Vector.replicate 64 0, LC := 0, LSUM := 0, LOFF := Vector.replicate 64 0,
    LFM := Vector.replicate 64 0, LLO := 0, LHI := 0, LVM := 0 }

/-- The state after power-on reset (R41, R220): `LVALID`, `FAULT`, `ERR` and `RVALID` are zero as the spec says; the
registers it leaves unspecified have the values of log entry 3; the host has presented nothing. -/
def State.reset : State :=
  { LVALID := false, lay := Layout.cleared, FAULT := false, ERR := 0, RES := 0, RVALID := false,
    ports := Ports.idle, pending := [], freeCount := 0 }

end Sys2Proof.Machine
end

