-- ==== Sys2Proof/Machine/Operands.lean ====
section
/-! DEFINITION. The helper functions of R8 over the layout registers, the ranges of R139, and the reading of every
operand form: packed words (R104), field indices and ranges (R101, R165), lanes (R100), widths (R80), shift amounts
(R177). Values are exact integers (R6); a result is narrowed once, where a register is written. -/

namespace Sys2Proof.Machine

/-- `ones(k) = 2^k - 1` (R8). -/
def ones (k : Nat) : Nat := 2 ^ k - 1

/-- `sgn(v, w)`: the signed reading of a `w`-bit pattern (R8). -/
def sgn (v w : Nat) : Int := if 2 ^ (w - 1) ≤ v then (v : Int) - ((2 ^ w : Nat) : Int) else (v : Int)

/-- `clampu(v, w) = min(max(v, 0), 2^w - 1)` (R139). -/
def clampu (v : Int) (w : Nat) : Int := min (max v 0) (((2 ^ w : Nat) : Int) - 1)

/-- `clamps(v, w) = min(max(v, -2^(w-1)), 2^(w-1) - 1)` (R139). -/
def clamps (v : Int) (w : Nat) : Int :=
  min (max v (-((2 ^ (w - 1) : Nat) : Int))) (((2 ^ (w - 1) : Nat) : Int) - 1)

/-- `LN` as a number (R24). -/
def Layout.n (L : Layout) : Nat := L.LN.toNat

/-- `LW[i]` (R25). There are 64 entries; an index past them names none and reads 0 (log entry 6). -/
def Layout.width (L : Layout) (i : Nat) : Nat := (L.LW[i]?.getD 0).toNat

/-- `LOFF[i]` (R28). -/
def Layout.offset (L : Layout) (i : Nat) : Nat := (L.LOFF[i]?.getD 0).toNat

/-- `LFM[i]` (R30). -/
def Layout.fieldMask (L : Layout) (i : Nat) : Word := L.LFM[i]?.getD 0

/-- `top(i) = LOFF[i] + LW[i] - 1` (R8). -/
def Layout.top (L : Layout) (i : Nat) : Nat := L.offset i + L.width i - 1

/-- `fld(p, i) = (p >> LOFF[i]) & ones(LW[i])` (R8). -/
def Layout.fld (L : Layout) (p : Word) (i : Nat) : Nat := (p.toNat >>> L.offset i) &&& ones (L.width i)

/-- `sfld(p, i) = sgn(fld(p, i), LW[i])` (R8). -/
def Layout.sfld (L : Layout) (p : Word) (i : Nat) : Int := sgn (L.fld p i) (L.width i)

/-- One term of `join`: `(v mod 2^LW[i]) << LOFF[i]` (R8). -/
def Layout.place (L : Layout) (i : Nat) (v : Int) : Nat :=
  (v % ((2 ^ L.width i : Nat) : Int)).toNat <<< L.offset i

/-- `join(f)`: the word whose field `i` is `f(i)` (R8). -/
def Layout.join (L : Layout) (f : Nat → Int) : Word :=
  BitVec.ofNat 64 ((List.range L.n).map fun i => L.place i (f i)).sum

/-- `bcast(x)`: the OR of `LFM[i]` over the fields whose bit `top(i)` is set in `x` (R8, R131). -/
def Layout.bcast (L : Layout) (x : Word) : Word :=
  (List.range L.n).foldl (fun m i => if x.getLsbD (L.top i) then m ||| L.fieldMask i else m) 0

/-- `conf(p) = p & LVM` (R8): how every packed-word operand is read (R104). -/
def Layout.conf (L : Layout) (p : Word) : Word := p &&& L.LVM

/-- Lane `i` of `VIN` (R20). -/
def Ports.lane (p : Ports) (i : Nat) : Word := p.VIN[i]?.getD 0

/-- The width list of `computeLayout`: lanes 0 to `n - 1`, unsigned (R66, R80). -/
def Ports.widthList (p : Ports) (n : Nat) : List Nat := (List.range n).map fun i => (p.lane i).toNat

/-- A command that names field `i`: `E_INDEX` when `i >= LN` (R87, R101, R102). -/
def Layout.withField (L : Layout) (i : BitVec 7) (value : Nat → Word) : Except ErrCode Word :=
  if L.n ≤ i.toNat then .error .index else .ok (value i.toNat)

/-- A command that names fields `first` to `last - 1`: `E_SLICE` when `first >= last` or `last > LN` (R165). -/
def Layout.withRange (L : Layout) (first last : BitVec 7) (value : Nat → Nat → Word) : Except ErrCode Word :=
  if last.toNat ≤ first.toNat ∨ L.n < last.toNat then .error .slice
  else .ok (value first.toNat last.toNat)

/-- The widths of fields `first` to `last - 1`, in order (R166). -/
def Layout.widthsBetween (L : Layout) (first last : Nat) : List Nat :=
  (List.range (last - first)).map fun k => L.width (first + k)

end Sys2Proof.Machine
end

