-- ==== Sys2Proof/Machine/Flags.lean ====
section
/-! DEFINITION. The unit has no flags (R38). What the spec computes in their place are condition VECTORS inside one
command, one bit per field at its top bit, never kept: carry (R130), borrow (R150), signed overflow (R135, R137), the
sums they are computed from, and the field-wise select (R151). The commands are defined per field (R85); the vectors
are the spec's closed forms, and Certificates states that they agree. -/

namespace Sys2Proof.Machine

/-- The wrapping sum of R120 and R130: `join(i -> (fld(a,i) + fld(b,i)) mod 2^LW[i])`. -/
def Layout.wrapSum (L : Layout) (a b : Word) : Word :=
  L.join fun i => ((L.fld a i + L.fld b i : Nat) : Int)

/-- The wrapping difference of R121 and R150: `join(i -> (fld(a,i) - fld(b,i)) mod 2^LW[i])`. -/
def Layout.wrapDiff (L : Layout) (a b : Word) : Word :=
  L.join fun i => (L.fld a i : Int) - (L.fld b i : Int)

/-- `carry(a, b) = ((a & b) | ((a | b) & ~sum)) & LHI` (R130). -/
def Layout.carry (L : Layout) (a b : Word) : Word :=
  ((a &&& b) ||| ((a ||| b) &&& ~~~L.wrapSum a b)) &&& L.LHI

/-- `borrow(a, b)`: bit `top(i)` is 1 exactly when `fld(a,i) < fld(b,i)`, all other bits are 0 (R150: "A model should
define the vector by the comparison"). -/
def Layout.borrow (L : Layout) (a b : Word) : Word :=
  (List.range L.n).foldl
    (fun m i => if L.fld a i < L.fld b i then m ||| BitVec.ofNat 64 (1 <<< L.top i) else m) 0

/-- The formula of the borrow vector: `((~a & b) | (~(a ^ b) & diff)) & LHI` (R150). -/
def Layout.borrowFormula (L : Layout) (a b : Word) : Word :=
  ((~~~a &&& b) ||| (~~~(a ^^^ b) &&& L.wrapDiff a b)) &&& L.LHI

/-- `ovadd(a, b) = ~(a ^ b) & (sum ^ b) & LHI` (R135). -/
def Layout.ovadd (L : Layout) (a b : Word) : Word :=
  ~~~(a ^^^ b) &&& (L.wrapSum a b ^^^ b) &&& L.LHI

/-- `ovsub(a, b) = ((~a & b & diff) | (a & ~(b | diff))) & LHI` (R137). -/
def Layout.ovsub (L : Layout) (a b : Word) : Word :=
  ((~~~a &&& b &&& L.wrapDiff a b) ||| (a &&& ~~~(b ||| L.wrapDiff a b))) &&& L.LHI

/-- The select of the signed saturating commands: `(r & ~bcast(ov)) | (ov ^ bcast(ov & by))`, `by` the word whose
set top bit means "too large" (R136, R138). -/
def Layout.saturateSelect (L : Layout) (r ov large : Word) : Word :=
  (r &&& ~~~L.bcast ov) ||| (ov ^^^ L.bcast (ov &&& large))

/-- `select(m, a, b) = (a & m) | (b & ~m & LVM)` (R151). -/
def Layout.select (L : Layout) (m a b : Word) : Word :=
  (a &&& m) ||| (b &&& ~~~m &&& L.LVM)

end Sys2Proof.Machine
end

