-- ==== Sys2Proof/Machine/Ops.lean ====
section
/-! DEFINITION. The operations every command is made of: fault entry (R194), the write of a result (R35), the check
for a layout (R192), reset (R220), and taking a presentation from the host with the priority of R193. There is no
return from a fault (R197): the one way out is reset. -/

namespace Sys2Proof.Machine

/-- The values `ERR` holds (R191). -/
def ErrCode.code : ErrCode → BitVec 4
  | .illcmd => 1
  | .nolayout => 2
  | .empty => 3
  | .zerow => 4
  | .toowide => 5
  | .index => 6
  | .slice => 7

/-- Fault entry (R194): `FAULT <- 1`, `ERR <- c`, `RVALID <- 0`, `RES` becomes unspecified (a free value, log entry 2),
and nothing else changes. -/
def State.takeFault (s : State) (c : ErrCode) : State :=
  { s with
    FAULT := true
    ERR := c.code
    RVALID := false
    RES := Config.freeValue .res s.freeCount
    freeCount := s.freeCount + 1 }

/-- A command that completes without a fault (R35): `RES <- r`, `RVALID <- 1`. -/
def State.finish (s : State) (r : Word) : State :=
  { s with RES := r, RVALID := true }

/-- Every command but `computeLayout`: `E_NOLAYOUT` while `LVALID = 0` (R192, R193 (3)), then the command's own checks
(R193 (4)), then its result. -/
def State.compute (s : State) (f : Layout → Except ErrCode Word) : State :=
  if s.LVALID = false then s.takeFault .nolayout
  else match f s.lay with
    | .error c => s.takeFault c
    | .ok r => s.finish r

/-- Layout registers whose every bit is unspecified (R41), drawn as the `k`-th free values of their places. -/
def Layout.unspecified (k : Nat) : Layout :=
  { LN := (Config.freeValue .ln k).setWidth 7
    LW := Vector.ofFn fun i => (Config.freeValue (.lw i) k).setWidth 7
    LC := (Config.freeValue .lc k).setWidth 7
    LSUM := (Config.freeValue .lsum k).setWidth 7
    LOFF := Vector.ofFn fun i => (Config.freeValue (.loff i) k).setWidth 6
    LFM := Vector.ofFn fun i => Config.freeValue (.lfm i) k
    LLO := Config.freeValue .llo k
    LHI := Config.freeValue .lhi k
    LVM := Config.freeValue .lvm k }

/-- `RESET` (R220): `LVALID <- 0`, `FAULT <- 0`, `ERR <- 0`, `RVALID <- 0`, "everything else unspecified". The ports
and the host's queue are not registers of the unit. -/
def State.applyReset (s : State) : State :=
  { s with
    LVALID := false
    lay := Layout.unspecified s.freeCount
    FAULT := false
    ERR := 0
    RES := Config.freeValue .res s.freeCount
    RVALID := false
    freeCount := s.freeCount + 1 }

/-- The host drives the ports with its next presentation (R20: "all sampled once, together"). -/
def State.sample (s : State) (p : Ports) (rest : List Ports) : State :=
  { s with ports := p, pending := rest }

/-- What a presentation comes to before any command executes. -/
inductive Taken where
  /-- No command executes: the state after the presentation. -/
  | done (s : State)
  /-- The command to execute, at the state with the ports sampled. -/
  | command (i : Instr) (s : State)
  deriving DecidableEq, Repr

/-- A presentation at sampled ports, in the order of R193: reset wins and the command is not taken; a faulted unit
refuses the command, undecoded, and changes no register (R196); an illegal word raises `E_ILLCMD` (R64). -/
def State.takePresentation (s : State) : Taken :=
  if s.ports.RESET then .done s.applyReset
  else if s.FAULT then .done s
  else match decode s.ports.CMD with
    | .error _ => .done (s.takeFault .illcmd)
    | .ok i => .command i s

/-- The unit's next event: with nothing presented it waits (R220: "the unit waits for the host's first command"; R22:
state changes only when a command completes or when reset is applied). -/
def State.take (s : State) : Taken :=
  match s.pending with
  | [] => .done s
  | p :: rest => (s.sample p rest).takePresentation

end Sys2Proof.Machine
end

