-- ==== Sys2Proof/Machine/Codec.lean ====
section
/-! DEFINITION. The pack/unpack codec: `pack`, `unpack_unsigned`, `unpack_signed`, `equal` (41_codec.md). -/

namespace Sys2Proof.Machine

/-- `r = r | ((VIN[i] & ones(LW[i])) << LOFF[i])` for `i < LN` (R100). -/
def Layout.packLanes (L : Layout) (p : Ports) : Word :=
  (List.range L.n).foldl
    (fun r i => r ||| BitVec.ofNat 64 (((p.lane i).toNat &&& ones (L.width i)) <<< L.offset i)) 0

/-- `pack` (R100). -/
def execPack (s : State) : Host.Outcome State Fault Refusal :=
  .next (s.compute fun L => .ok (L.packLanes s.ports))

/-- `unpack_unsigned` (R101): `RES <- fld(A, i)`. -/
def execUnpackUnsigned (i : BitVec 7) (s : State) : Host.Outcome State Fault Refusal :=
  .next (s.compute fun L => L.withField i fun k => BitVec.ofNat 64 (L.fld s.ports.A k))

/-- `unpack_signed` (R102): `RES <- sext_64(sfld(A, i))`. -/
def execUnpackSigned (i : BitVec 7) (s : State) : Host.Outcome State Fault Refusal :=
  .next (s.compute fun L => L.withField i fun k => BitVec.ofInt 64 (L.sfld s.ports.A k))

/-- The source's container-width formula for `unpack_signed` (R102): with `C = LC`,
`t = (conf(A) << (C - LOFF[i] - LW[i])) mod 2^C` and `floor(sgn(t, C) / 2^(C - LW[i]))`. -/
def Layout.unpackSignedByContainer (L : Layout) (p : Word) (i : Nat) : Int :=
  let C := L.LC.toNat
  let t := ((L.conf p).toNat <<< (C - L.offset i - L.width i)) % 2 ^ C
  sgn t C / ((2 ^ (C - L.width i) : Nat) : Int)

/-- `equal` (R103): `RES <- 1 if conf(A) == conf(B) else 0`. -/
def execEqual (s : State) : Host.Outcome State Fault Refusal :=
  .next (s.compute fun L => .ok (if L.conf s.ports.A = L.conf s.ports.B then 1 else 0))

end Sys2Proof.Machine
end

