-- ==== Sys2Proof/Machine/Compiler.lean ====
section
/-! DEFINITION. The field-layout compiler: `computeLayout` and `layout_read` (40_layout.md). -/

namespace Sys2Proof.Machine

/-- `container(S, cw)` (R81). Automatic: the smallest of 8, 16, 32, 64 that is `>= S`; above 64 none fits, and R82 has
already raised `E_TOOWIDE`. -/
def container (S : Nat) : ContainerChoice → Nat
  | .auto => if S ≤ 8 then 8 else if S ≤ 16 then 16 else if S ≤ 32 then 32 else 64
  | .c8 => 8
  | .c16 => 16
  | .c32 => 32
  | .c64 => 64

/-- `check(n, w, cw)` (R82): the first test that fails decides the code; the sum is exact. With `cw = 0` the container
is the smallest that holds `S`, so `S > 64` is `S > container(S, cw)`. -/
def checkWidths (n : Nat) (ws : List Nat) (cw : ContainerChoice) : Option ErrCode :=
  if n = 0 then some .empty
  else if 64 < n then some .toowide
  else if 0 ∈ ws then some .zerow
  else if container ws.sum cw < ws.sum then some .toowide
  else none

/-- The widths with their offsets, from offset `off` upward: the loop of R83 (`LOFF[i] <- off`, `off = off + w[i]`). -/
def spans (off : Nat) : List Nat → List (Nat × Nat)
  | [] => []
  | w :: ws => (w, off) :: spans (off + w) ws

/-- `derive(n, w, S, C)` (R83). Entries at an index `n` or above "are left unspecified": the `k`-th free values of their
places (log entry 2). -/
def deriveLayout (k : Nat) (ws : List Nat) (C : Nat) : Layout :=
  let fs := spans 0 ws
  { LN := BitVec.ofNat 7 ws.length
    LW := Vector.ofFn fun i => match fs[i.val]? with
      | some (w, _) => BitVec.ofNat 7 w
      | none => (Config.freeValue (.lw i) k).setWidth 7
    LC := BitVec.ofNat 7 C
    LSUM := BitVec.ofNat 7 ws.sum
    LOFF := Vector.ofFn fun i => match fs[i.val]? with
      | some (_, off) => BitVec.ofNat 6 off
      | none => (Config.freeValue (.loff i) k).setWidth 6
    LFM := Vector.ofFn fun i => match fs[i.val]? with
      | some (w, off) => BitVec.ofNat 64 (ones w <<< off)
      | none => Config.freeValue (.lfm i) k
    LLO := fs.foldl (fun m f => m ||| BitVec.ofNat 64 (1 <<< f.2)) 0
    LHI := fs.foldl (fun m f => m ||| BitVec.ofNat 64 (1 <<< (f.2 + f.1 - 1))) 0
    LVM := fs.foldl (fun m f => m ||| BitVec.ofNat 64 (ones f.1 <<< f.2)) 0 }

/-- A successful `computeLayout` writes all ten layout registers at once (R22, R83) and `RES <- 0` (R35, R80). -/
def State.setLayout (s : State) (L : Layout) : State :=
  { s with LVALID := true, lay := L, freeCount := s.freeCount + 1 }.finish 0

/-- `computeLayout` (R80): the one command that may be issued with `LVALID = 0`. -/
def execComputeLayout (n : BitVec 7) (cw : ContainerChoice) (s : State) : Host.Outcome State Fault Refusal :=
  let ws := s.ports.widthList n.toNat
  match checkWidths n.toNat ws cw with
  | some c => .next (s.takeFault c)
  | none => .next (s.setLayout (deriveLayout s.freeCount ws (container ws.sum cw)))

/-- `value(sel, i)` (R88), zero-extended to 64 bits. -/
def Layout.selected (L : Layout) : Selector → Nat → Word
  | .n, _ => L.LN.setWidth 64
  | .cbits, _ => L.LC.setWidth 64
  | .sumw, _ => L.LSUM.setWidth 64
  | .lomask, _ => L.LLO
  | .himask, _ => L.LHI
  | .validbits, _ => L.LVM
  | .width, i => BitVec.ofNat 64 (L.width i)
  | .offset, i => BitVec.ofNat 64 (L.offset i)
  | .fieldmask, i => L.fieldMask i

/-- `layout_read` (R87): `E_INDEX` for an indexed selector with `i >= LN`. -/
def execLayoutRead (sel : Selector) (i : BitVec 7) (s : State) : Host.Outcome State Fault Refusal :=
  .next (s.compute fun L =>
    if sel.indexed then L.withField i (L.selected sel) else .ok (L.selected sel 0))

end Sys2Proof.Machine
end

