-- ==== Sys2Proof/Machine/MinMax.lean ====
section
/-! DEFINITION. The min/max selector: four commands defined per field (44_minmax.md), with the source's construction by
borrow vector, broadcast and select. -/

namespace Sys2Proof.Machine

/-- `min_unsigned` (R152): `join(i -> min(fld(a,i), fld(b,i)))`. -/
def Layout.minUnsigned (L : Layout) (A B : Word) : Word :=
  L.join fun i => min (L.fld (L.conf A) i : Int) (L.fld (L.conf B) i : Int)

/-- `max_unsigned` (R153): `join(i -> max(fld(a,i), fld(b,i)))`. -/
def Layout.maxUnsigned (L : Layout) (A B : Word) : Word :=
  L.join fun i => max (L.fld (L.conf A) i : Int) (L.fld (L.conf B) i : Int)

/-- `min_signed` (R154): `join(i -> min(sfld(a,i), sfld(b,i)))`. -/
def Layout.minSigned (L : Layout) (A B : Word) : Word :=
  L.join fun i => min (L.sfld (L.conf A) i) (L.sfld (L.conf B) i)

/-- `max_signed` (R155): `join(i -> max(sfld(a,i), sfld(b,i)))`. -/
def Layout.maxSigned (L : Layout) (A B : Word) : Word :=
  L.join fun i => max (L.sfld (L.conf A) i) (L.sfld (L.conf B) i)

/-- `min_unsigned` (R152). -/
def execMinUnsigned (s : State) : Host.Outcome State Fault Refusal :=
  .next (s.compute fun L => .ok (L.minUnsigned s.ports.A s.ports.B))

/-- `max_unsigned` (R153). -/
def execMaxUnsigned (s : State) : Host.Outcome State Fault Refusal :=
  .next (s.compute fun L => .ok (L.maxUnsigned s.ports.A s.ports.B))

/-- `min_signed` (R154). -/
def execMinSigned (s : State) : Host.Outcome State Fault Refusal :=
  .next (s.compute fun L => .ok (L.minSigned s.ports.A s.ports.B))

/-- `max_signed` (R155). -/
def execMaxSigned (s : State) : Host.Outcome State Fault Refusal :=
  .next (s.compute fun L => .ok (L.maxSigned s.ports.A s.ports.B))

/-- The source's construction of `min_unsigned`: `select(bcast(borrow(a, b)), a, b)` (R152). -/
def Layout.minUnsignedClosed (L : Layout) (A B : Word) : Word :=
  L.select (L.bcast (L.borrow (L.conf A) (L.conf B))) (L.conf A) (L.conf B)

/-- The source's construction of `max_unsigned`: `select(bcast(borrow(b, a)), a, b)` (R153). -/
def Layout.maxUnsignedClosed (L : Layout) (A B : Word) : Word :=
  L.select (L.bcast (L.borrow (L.conf B) (L.conf A))) (L.conf A) (L.conf B)

/-- The source's construction of `min_signed`: `select(bcast(borrow(a ^ LHI, b ^ LHI)), a, b)` (R154). -/
def Layout.minSignedClosed (L : Layout) (A B : Word) : Word :=
  L.select (L.bcast (L.borrow (L.conf A ^^^ L.LHI) (L.conf B ^^^ L.LHI))) (L.conf A) (L.conf B)

/-- The source's construction of `max_signed`: `select(bcast(borrow(b ^ LHI, a ^ LHI)), a, b)` (R155). -/
def Layout.maxSignedClosed (L : Layout) (A B : Word) : Word :=
  L.select (L.bcast (L.borrow (L.conf B ^^^ L.LHI) (L.conf A ^^^ L.LHI))) (L.conf A) (L.conf B)

end Sys2Proof.Machine
end

