-- ==== Sys2Proof/Machine/Wrap.lean ====
section
/-! DEFINITION. The masked adder, wrapping form: `add_wrap`, `sub_wrap` (42_wrap.md), with the spec's closed forms. -/

namespace Sys2Proof.Machine

/-- `add_wrap(a, b)` as a function of its operands (R120). -/
def Layout.addWrap (L : Layout) (A B : Word) : Word := L.wrapSum (L.conf A) (L.conf B)

/-- `sub_wrap(a, b)` as a function of its operands (R121). -/
def Layout.subWrap (L : Layout) (A B : Word) : Word := L.wrapDiff (L.conf A) (L.conf B)

/-- `add_wrap` (R120). -/
def execAddWrap (s : State) : Host.Outcome State Fault Refusal :=
  .next (s.compute fun L => .ok (L.addWrap s.ports.A s.ports.B))

/-- `sub_wrap` (R121). -/
def execSubWrap (s : State) : Host.Outcome State Fault Refusal :=
  .next (s.compute fun L => .ok (L.subWrap s.ports.A s.ports.B))

/-- `mask1 = ~LHI & LVM` (R120, R121). -/
def Layout.mask1 (L : Layout) : Word := ~~~L.LHI &&& L.LVM

/-- The source's closed form of `add_wrap`: `((a & mask1) + (b & mask1)) ^ ((a ^ b) & LHI)` (R120). -/
def Layout.addWrapClosed (L : Layout) (A B : Word) : Word :=
  let a := L.conf A
  let b := L.conf B
  ((a &&& L.mask1) + (b &&& L.mask1)) ^^^ ((a ^^^ b) &&& L.LHI)

/-- The first closed form of `sub_wrap`: `((a & mask1) + (nb & mask1) + LLO) ^ ((a ^ nb) & LHI)`, `nb = ~b & LVM` (R121). -/
def Layout.subWrapClosed (L : Layout) (A B : Word) : Word :=
  let a := L.conf A
  let nb := ~~~L.conf B &&& L.LVM
  ((a &&& L.mask1) + (nb &&& L.mask1) + L.LLO) ^^^ ((a ^^^ nb) &&& L.LHI)

/-- The second closed form of `sub_wrap`: `((a | LHI) - (b & ~LHI)) ^ ((a ^ ~b) & LHI)` (R121). -/
def Layout.subWrapClosed2 (L : Layout) (A B : Word) : Word :=
  let a := L.conf A
  let b := L.conf B
  ((a ||| L.LHI) - (b &&& ~~~L.LHI)) ^^^ ((a ^^^ ~~~b) &&& L.LHI)

end Sys2Proof.Machine
end

