-- ==== Sys2Proof/Machine/Saturate.lean ====
section
/-! DEFINITION. The masked adder, saturating form: four commands, each defined per field by the numeric contract
(43_saturate.md; 90_conflicts.md C2 and C3 reject two of the source's formulas), with the spec's closed forms. -/

namespace Sys2Proof.Machine

/-- `add_unsigned_saturate` (R132): `join(i -> min(fld(a,i) + fld(b,i), 2^LW[i] - 1))`. -/
def Layout.addUnsignedSaturate (L : Layout) (A B : Word) : Word :=
  L.join fun i => min ((L.fld (L.conf A) i : Int) + (L.fld (L.conf B) i : Int)) (((2 ^ L.width i : Nat) : Int) - 1)

/-- `sub_unsigned_saturate` (R134): `join(i -> max(fld(a,i) - fld(b,i), 0))`. -/
def Layout.subUnsignedSaturate (L : Layout) (A B : Word) : Word :=
  L.join fun i => max ((L.fld (L.conf A) i : Int) - (L.fld (L.conf B) i : Int)) 0

/-- `add_signed_saturate` (R136): `join(i -> clamps(sfld(a,i) + sfld(b,i), LW[i]))`. -/
def Layout.addSignedSaturate (L : Layout) (A B : Word) : Word :=
  L.join fun i => clamps (L.sfld (L.conf A) i + L.sfld (L.conf B) i) (L.width i)

/-- `sub_signed_saturate` (R138): `join(i -> clamps(sfld(a,i) - sfld(b,i), LW[i]))`. -/
def Layout.subSignedSaturate (L : Layout) (A B : Word) : Word :=
  L.join fun i => clamps (L.sfld (L.conf A) i - L.sfld (L.conf B) i) (L.width i)

/-- `add_unsigned_saturate` (R132). -/
def execAddUnsignedSaturate (s : State) : Host.Outcome State Fault Refusal :=
  .next (s.compute fun L => .ok (L.addUnsignedSaturate s.ports.A s.ports.B))

/-- `sub_unsigned_saturate` (R134). -/
def execSubUnsignedSaturate (s : State) : Host.Outcome State Fault Refusal :=
  .next (s.compute fun L => .ok (L.subUnsignedSaturate s.ports.A s.ports.B))

/-- `add_signed_saturate` (R136). -/
def execAddSignedSaturate (s : State) : Host.Outcome State Fault Refusal :=
  .next (s.compute fun L => .ok (L.addSignedSaturate s.ports.A s.ports.B))

/-- `sub_signed_saturate` (R138). -/
def execSubSignedSaturate (s : State) : Host.Outcome State Fault Refusal :=
  .next (s.compute fun L => .ok (L.subSignedSaturate s.ports.A s.ports.B))

/-- The source's closed form of `add_unsigned_saturate`: `sum | bcast(carry(a, b))` (R132). -/
def Layout.addUnsignedSaturateClosed (L : Layout) (A B : Word) : Word :=
  L.addWrap A B ||| L.bcast (L.carry (L.conf A) (L.conf B))

/-- The first closed form of `sub_unsigned_saturate`: `diff & ~bcast(borrow(a, b))` (R134). -/
def Layout.subUnsignedSaturateClosed (L : Layout) (A B : Word) : Word :=
  L.subWrap A B &&& ~~~L.bcast (L.borrow (L.conf A) (L.conf B))

/-- The second closed form of `sub_unsigned_saturate`: `~add_unsigned_saturate(~a & LVM, b) & LVM` (R134). -/
def Layout.subUnsignedSaturateClosed2 (L : Layout) (A B : Word) : Word :=
  ~~~L.addUnsignedSaturate (~~~L.conf A &&& L.LVM) B &&& L.LVM

/-- The closed form of `add_signed_saturate` (R136); `large` is `sum` or, in the second form, `~a`. -/
def Layout.addSignedSaturateClosed (L : Layout) (A B large : Word) : Word :=
  L.saturateSelect (L.addWrap A B) (L.ovadd (L.conf A) (L.conf B)) large

/-- The closed form of `sub_signed_saturate` (R138); `large` is `diff` or, in the second form, `~a`. -/
def Layout.subSignedSaturateClosed (L : Layout) (A B large : Word) : Word :=
  L.saturateSelect (L.subWrap A B) (L.ovsub (L.conf A) (L.conf B)) large

/-- `low(v)`: each set bit of `v` moved from `top(i)` down to `LOFF[i]` (R133). -/
def Layout.lowBits (L : Layout) (v : Word) : Word :=
  (List.range L.n).foldl
    (fun m i => if v.getLsbD (L.top i) then m ||| BitVec.ofNat 64 (1 <<< L.offset i) else m) 0

/-- The common core of the three saturation-mask computations: `((v << 1) - low(v)) mod 2^64` (R133). -/
def Layout.bcastByShift (L : Layout) (v : Word) : Word := (v <<< 1) - L.lowBits v

end Sys2Proof.Machine
end

