-- ==== Sys2Proof/Machine/Shift.lean ====
section
/-! DEFINITION. The shift-and-mask unit: `shift_left`, `shift_right_unsigned` (46_shift.md), with the closed forms. The
amount is the whole of port `B`, unsigned, and every amount is legal (R177). -/

namespace Sys2Proof.Machine

/-- `(v * 2^n) mod 2^w`, and zero once `n >= w` (R175). -/
def shiftFieldLeft (v n w : Nat) : Nat := if w ≤ n then 0 else (v * 2 ^ n) % 2 ^ w

/-- `floor(v / 2^n)` of a `w`-bit value, zero once `n >= w` (R176). -/
def shiftFieldRight (v n w : Nat) : Nat := if w ≤ n then 0 else v / 2 ^ n

/-- `shift_left` (R175): `join(i -> (fld(p,i) * 2^n) mod 2^LW[i])`. -/
def Layout.shiftLeft (L : Layout) (A B : Word) : Word :=
  L.join fun i => (shiftFieldLeft (L.fld (L.conf A) i) B.toNat (L.width i) : Int)

/-- `shift_right_unsigned` (R176): `join(i -> floor(fld(p,i) / 2^n))`. -/
def Layout.shiftRightUnsigned (L : Layout) (A B : Word) : Word :=
  L.join fun i => (shiftFieldRight (L.fld (L.conf A) i) B.toNat (L.width i) : Int)

/-- `shift_left` (R175). -/
def execShiftLeft (s : State) : Host.Outcome State Fault Refusal :=
  .next (s.compute fun L => .ok (L.shiftLeft s.ports.A s.ports.B))

/-- `shift_right_unsigned` (R176). -/
def execShiftRightUnsigned (s : State) : Host.Outcome State Fault Refusal :=
  .next (s.compute fun L => .ok (L.shiftRightUnsigned s.ports.A s.ports.B))

/-- The loop-free closed form of `shift_left` (R175). -/
def Layout.shiftLeftClosed (L : Layout) (A B : Word) : Word :=
  if 64 ≤ B.toNat then 0
  else
    let keep := (List.range L.n).foldl (fun m i => m ||| (L.fieldMask i &&& (L.fieldMask i <<< B.toNat))) 0
    (L.conf A <<< B.toNat) &&& keep

/-- The loop-free closed form of `shift_right_unsigned` (R176). -/
def Layout.shiftRightUnsignedClosed (L : Layout) (A B : Word) : Word :=
  if 64 ≤ B.toNat then 0
  else
    let keep := (List.range L.n).foldl (fun m i => m ||| (L.fieldMask i &&& (L.fieldMask i >>> B.toNat))) 0
    (L.conf A >>> B.toNat) &&& keep

end Sys2Proof.Machine
end

