-- ==== Sys2Proof/Machine/Slicer.lean ====
section
/-! DEFINITION. The field slicer: `slice` (45_slice.md), and the sub-layout its result belongs to. -/

namespace Sys2Proof.Machine

/-- `(conf(A) >> LOFF[first]) & ones(W)`, `W` the sum of `LW[k]` for `first <= k < last` (R165). -/
def Layout.sliceFields (L : Layout) (A : Word) (first last : Nat) : Word :=
  BitVec.ofNat 64 (((L.conf A).toNat >>> L.offset first) &&& ones (L.widthsBetween first last).sum)

/-- `slice` (R165). -/
def execSlice (first last : BitVec 7) (s : State) : Host.Outcome State Fault Refusal :=
  .next (s.compute fun L => L.withRange first last (L.sliceFields s.ports.A))

/-- The sub-layout of a slice result (R166): the layout `computeLayout` compiles from the sub-sequence of widths, with
the automatic container. The unit does not store it; `k` counts the free values of its unused entries. -/
def Layout.subLayout (L : Layout) (k first last : Nat) : Layout :=
  let ws := L.widthsBetween first last
  deriveLayout k ws (container ws.sum .auto)

end Sys2Proof.Machine
end

