-- ==== Sys2Proof/Machine/Dispatch.lean ====
section
/-! DEFINITION. One arm per command (R63): `exec` runs a decoded command at a state whose ports are sampled. -/

namespace Sys2Proof.Machine

def exec (i : Instr) (s : State) : Host.Outcome State Fault Refusal :=
  match i with
  -- 40_layout.md
  | .computeLayout n cw => Sys2Proof.Machine.execComputeLayout n cw s
  | .layoutRead sel k => Sys2Proof.Machine.execLayoutRead sel k s
  -- 41_codec.md
  | .pack => Sys2Proof.Machine.execPack s
  | .unpackUnsigned k => Sys2Proof.Machine.execUnpackUnsigned k s
  | .unpackSigned k => Sys2Proof.Machine.execUnpackSigned k s
  | .equal => Sys2Proof.Machine.execEqual s
  -- 42_wrap.md
  | .addWrap => Sys2Proof.Machine.execAddWrap s
  | .subWrap => Sys2Proof.Machine.execSubWrap s
  -- 43_saturate.md
  | .addUnsignedSaturate => Sys2Proof.Machine.execAddUnsignedSaturate s
  | .subUnsignedSaturate => Sys2Proof.Machine.execSubUnsignedSaturate s
  | .addSignedSaturate => Sys2Proof.Machine.execAddSignedSaturate s
  | .subSignedSaturate => Sys2Proof.Machine.execSubSignedSaturate s
  -- 44_minmax.md
  | .minUnsigned => Sys2Proof.Machine.execMinUnsigned s
  | .maxUnsigned => Sys2Proof.Machine.execMaxUnsigned s
  | .minSigned => Sys2Proof.Machine.execMinSigned s
  | .maxSigned => Sys2Proof.Machine.execMaxSigned s
  -- 45_slice.md
  | .slice first last => Sys2Proof.Machine.execSlice first last s
  -- 46_shift.md
  | .shiftLeft => Sys2Proof.Machine.execShiftLeft s
  | .shiftRightUnsigned => Sys2Proof.Machine.execShiftRightUnsigned s

end Sys2Proof.Machine
end

