-- ==== Sys2Proof/Machine/Step.lean ====
section
/-! DEFINITION. One step: the host's next presentation, taken and executed (R9, R55), and how a command word is placed
where the next step takes it. -/

namespace Sys2Proof.Machine

/-- One presentation, one step (R9). `State.take` decides what is presented and whether a command executes (R193). -/
def step (s : State) : Host.Outcome State Fault Refusal :=
  match s.take with
  | .done t => .next t
  | .command i t => exec i t

/-- The host presents the command word `w` next: in the presentation at the head of its queue, or, with nothing
queued, in one more with the data the ports hold. `RESET` is not asserted, so that the command is taken. Log entry 1. -/
def State.withFetchWord (s : State) (nbits w : Nat) : State :=
  let cmd := BitVec.ofNat 32 (w % 2 ^ nbits)
  match s.pending with
  | [] => { s with pending := [{ s.ports with CMD := cmd, RESET := false }] }
  | p :: rest => { s with pending := { p with CMD := cmd, RESET := false } :: rest }

end Sys2Proof.Machine
end

