-- ==== Sys2Proof/Machine/Program.lean ====
section
/-! DEFINITION. Programs and runs (R223) and the assembler's lines (R68, R69). All of it is the host's side: the unit
knows nothing of a program (R37), it only sees the presentations. -/

namespace Sys2Proof.Machine

/-- Where the host takes a data input from (R68, R223). -/
inductive Src where
  /-- A literal word. -/
  | lit (w : Word)
  /-- A name bound by the earlier line `k`: the value `RES` had when that line completed. -/
  | resultOf (k : Nat)
  /-- No value is given: the input may hold anything (R66, R68). -/
  | unspecified
  deriving DecidableEq, Repr

/-- One line of a program: a command word with its data inputs; lanes past the list are unspecified (R68). -/
structure ProgramLine where
  cmd : CmdWord
  a : Src
  b : Src
  vin : List Src
  deriving DecidableEq, Repr

/-- The word a source stands for, `results` being what the earlier lines delivered. A name whose line delivered nothing
stands for no value, like an unspecified input: a free value (log entry 7). -/
def Src.word (results : List (Option Word)) (place : FreePlace) (k : Nat) : Src → Word
  | .lit w => w
  | .resultOf j =>
    match results[j]? with
    | some (some w) => w
    | _ => Config.freeValue place k
  | .unspecified => Config.freeValue place k

/-- The presentation of a line (R9, R20). -/
def ProgramLine.ports (l : ProgramLine) (results : List (Option Word)) (k : Nat) : Ports :=
  { CMD := l.cmd
    A := l.a.word results .portA k
    B := l.b.word results .portB k
    VIN := Vector.ofFn fun i => (l.vin[i.val]?.getD .unspecified).word results (.portV i) k
    RESET := false }

/-- What a run yields (R223): for each line the `RES` it delivered (none where it faulted or was refused), and the
final state. -/
structure RunResult where
  results : List (Option Word)
  final : State
  deriving DecidableEq, Repr

/-- The host presents one line: it is the whole of the queue, and its unspecified inputs are fresh. -/
def State.present (s : State) (l : ProgramLine) (results : List (Option Word)) : State :=
  { s with pending := [l.ports results s.freeCount], freeCount := s.freeCount + 1 }

/-- What a line delivers to the host: `RES` while `RVALID = 1` (R35). -/
def State.delivered (s : State) : Option Word := if s.RVALID then some s.RES else none

/-- A run from a stated state, one step per line, in order (R223); `results` holds what the lines before delivered. -/
def runLines : List ProgramLine → List (Option Word) → State → RunResult
  | [], results, s => ⟨results, s⟩
  | l :: ls, results, s =>
    match step (s.present l results) with
    | .next t => runLines ls (results ++ [t.delivered]) t
    | .fault _ => ⟨results, s⟩
    | .refused _ => ⟨results, s⟩

/-- A run of a program from the reset state (R223). -/
def runProgram (ls : List ProgramLine) : RunResult := runLines ls [] State.reset

/-! ### The assembler -/

/-- A line of the assembler (R68) with the pseudo-instruction `unpack` (R69). `from_raw x` expands to no command: the
word is the operand `Src.lit x`. -/
inductive AsmLine where
  /-- `computeLayout (w0, ..., w{n-1})`, or with `container=C`. -/
  | computeLayout (widths : List Word) (container : ContainerChoice)
  /-- `layout_read SEL` (with `i = 0`) or `layout_read SEL, i`. -/
  | layoutRead (sel : Selector) (i : BitVec 7)
  /-- `pack (v0, ..., v{m-1})`: `VIN[k] = sext_64(vk)`; a value outside the range of `sext_64` (R7) is log entry 16. -/
  | pack (values : List Int)
  /-- `unpack_unsigned a, i`. -/
  | unpackUnsigned (a : Src) (i : BitVec 7)
  /-- `unpack_signed a, i`. -/
  | unpackSigned (a : Src) (i : BitVec 7)
  /-- `unpack a, i`, which means `unpack_unsigned a, i` (R69). -/
  | unpack (a : Src) (i : BitVec 7)
  /-- `slice a, first, last`. -/
  | slice (a : Src) (first last : BitVec 7)
  /-- The commands with two data words: `equal a, b`, the wrap, saturating and min/max commands `a, b`, and the two
  shifts `a, n`. -/
  | binary (i : Instr) (a b : Src)
  deriving DecidableEq, Repr

/-- The commands that `AsmLine.binary` may name (R68). -/
def Instr.binaryForm : Instr → Bool
  | .computeLayout _ _ => false
  | .layoutRead _ _ => false
  | .pack => false
  | .unpackUnsigned _ => false
  | .unpackSigned _ => false
  | .slice _ _ => false
  | .equal => true
  | .addWrap => true
  | .subWrap => true
  | .addUnsignedSaturate => true
  | .subUnsignedSaturate => true
  | .addSignedSaturate => true
  | .subSignedSaturate => true
  | .minUnsigned => true
  | .maxUnsigned => true
  | .minSigned => true
  | .maxSigned => true
  | .shiftLeft => true
  | .shiftRightUnsigned => true

/-- A line whose command reads `a`, `b` and the lanes given, if it has a legal word (R64). -/
def programLine (i : Instr) (a b : Src) (vin : List Src) : Option ProgramLine :=
  if i.wellFormed then some ⟨encode i, a, b, vin⟩ else none

/-- The program line of an assembler line (R68). DESIGN CHOICE (log entry 16): R7 defines `sext_64(v)` only for
`-2^63 <= v < 2^63`, and a `pack` value outside that range is presented modulo `2^64`. None where the line is not
in the syntax or has no word (a list of more than 127 widths does not fit `f1`). -/
def AsmLine.assemble : AsmLine → Option ProgramLine
  | .computeLayout widths c =>
    if 127 < widths.length then none
    else programLine (.computeLayout (BitVec.ofNat 7 widths.length) c) .unspecified .unspecified (widths.map .lit)
  | .layoutRead sel i => programLine (.layoutRead sel i) .unspecified .unspecified []
  | .pack values => programLine .pack .unspecified .unspecified (values.map fun v => .lit (BitVec.ofInt 64 v))
  | .unpackUnsigned a i => programLine (.unpackUnsigned i) a .unspecified []
  | .unpackSigned a i => programLine (.unpackSigned i) a .unspecified []
  | .unpack a i => programLine (.unpackUnsigned i) a .unspecified []
  | .slice a first last => programLine (.slice first last) a .unspecified []
  | .binary i a b => if Instr.binaryForm i then programLine i a b [] else none

/-- The names of the selectors in a line's text (R68, R88). -/
def selectorName : Selector → String
  | .n => "N"
  | .cbits => "CBITS"
  | .sumw => "SUMW"
  | .lomask => "LOMASK"
  | .himask => "HIMASK"
  | .validbits => "VALIDBITS"
  | .width => "WIDTH"
  | .offset => "OFFSET"
  | .fieldmask => "FIELDMASK"

/-- The text of an operand: a decimal literal, or the name `r` with the number of the line that bound it; an input no
line names has no text. -/
def srcText : Src → String
  | .lit w => toString w.toNat
  | .resultOf k => "r" ++ toString k
  | .unspecified => ""

/-- The `container=C` part of a `computeLayout` line (R68). -/
def containerText : ContainerChoice → String
  | .auto => ""
  | .c8 => ", container=8"
  | .c16 => ", container=16"
  | .c32 => ", container=32"
  | .c64 => ", container=64"

/-- The textual form of a line, `mnemonic operands` in the source's argument order (R68). -/
def AsmLine.text : AsmLine → String
  | .computeLayout widths c =>
    "computeLayout (" ++ ", ".intercalate (widths.map fun w => toString w.toNat) ++ ")" ++ containerText c
  | .layoutRead sel i =>
    "layout_read " ++ selectorName sel ++ (if sel.indexed then ", " ++ toString i.toNat else "")
  | .pack values => "pack (" ++ ", ".intercalate (values.map toString) ++ ")"
  | .unpackUnsigned a i => "unpack_unsigned " ++ srcText a ++ ", " ++ toString i.toNat
  | .unpackSigned a i => "unpack_signed " ++ srcText a ++ ", " ++ toString i.toNat
  | .unpack a i => "unpack " ++ srcText a ++ ", " ++ toString i.toNat
  | .slice a first last =>
    "slice " ++ srcText a ++ ", " ++ toString first.toNat ++ ", " ++ toString last.toNat
  | .binary i a b => i.mnemonic ++ " " ++ srcText a ++ ", " ++ srcText b

end Sys2Proof.Machine
end

