-- ==== Sys2Proof/Safety.lean ====
section
/-! DEFINITION. What a good layout and a good state are (R24 to R33, R34, R35), when a command executes normally, and
the words the statements use: a fault entry (R194), a packed result (R104), which inputs a command reads (R66), which
faults it can raise (R192), which words are illegal (R64). -/

namespace Sys2Proof.Machine

/-- `Σ_{j<i} LW[j]` (R28). -/
def Layout.widthSum (L : Layout) (i : Nat) : Nat := ((List.range i).map L.width).sum

/-- The layout registers hold a compiled layout: the legal values and equations of R24 to R32. -/
structure Layout.WF (L : Layout) : Prop where
  /-- R24: at least one field. -/
  n_pos : 1 ≤ L.n
  /-- R24: at most 64. -/
  n_le : L.n ≤ 64
  /-- R25: every width is at least 1. -/
  width_pos : ∀ i < L.n, 1 ≤ L.width i
  /-- R27. -/
  lsum : L.LSUM.toNat = L.widthSum L.n
  /-- R26: one of 8, 16, 32, 64. -/
  lc_mem : L.LC.toNat ∈ Config.containers
  /-- R26: "Always `LC >= LSUM`." -/
  lsum_le_lc : L.LSUM.toNat ≤ L.LC.toNat
  /-- R28. -/
  offset_eq : ∀ i < L.n, L.offset i = L.widthSum i
  /-- R30. -/
  mask_eq : ∀ i < L.n, L.fieldMask i = BitVec.ofNat 64 (ones (L.width i) <<< L.offset i)
  /-- R31. -/
  llo_eq : L.LLO.toNat = ((List.range L.n).map fun i => 2 ^ L.offset i).sum
  /-- R32. -/
  lhi_eq : L.LHI.toNat = ((List.range L.n).map fun i => 2 ^ L.top i).sum
  /-- R29. -/
  lvm_eq : L.LVM.toNat = ones L.LSUM.toNat

/-- The invariant of the unit. -/
structure State.Inv (s : State) : Prop where
  /-- R23, R33: while `LVALID = 1` the layout registers hold a compiled layout. -/
  layout_wf : s.LVALID = true → s.lay.WF
  /-- R34, R191: `ERR` is `E_NONE` while no fault has been raised. -/
  err_none : s.FAULT = false → s.ERR = 0
  /-- R191, R197: `ERR` names the fault; the codes 8 to 15 are never produced. -/
  err_code : s.FAULT = true → ∃ c : ErrCode, s.ERR = c.code
  /-- R35, R196: a faulted unit has no result. -/
  no_result : s.FAULT = true → s.RVALID = false
  /-- R222: a result was computed under a layout. -/
  result_layout : s.RVALID = true → s.LVALID = true

/-- The state in which every command may be issued (R222, R193): no fault, and a compiled layout. -/
structure State.Ready (s : State) : Prop where
  no_fault : s.FAULT = false
  layout : s.LVALID = true
  wf : s.lay.WF

/-- The four registers that reset gives a value (R41, R220); the others are unspecified. -/
structure State.AfterReset (s : State) : Prop where
  lvalid : s.LVALID = false
  fault : s.FAULT = false
  err : s.ERR = 0
  rvalid : s.RVALID = false

/-- `t` is `s` after the fault entry of R194 with code `c`: `RES` is unspecified, nothing else changes. (`freeCount` is
the model's own counter of unspecified values.) -/
def State.FaultEntry (s : State) (c : ErrCode) (t : State) : Prop :=
  t = { s with FAULT := true, ERR := c.code, RVALID := false, RES := t.RES, freeCount := t.freeCount }

/-- `r` is the conformant word (R104) whose field `i` is `f i`, fields read unsigned. -/
def Layout.Holds (L : Layout) (r : Word) (f : Nat → Nat) : Prop :=
  L.conf r = r ∧ ∀ i < L.n, L.fld r i = f i

/-- `r` is the conformant word whose field `i` is `f i`, fields read signed. -/
def Layout.HoldsSigned (L : Layout) (r : Word) (f : Nat → Int) : Prop :=
  L.conf r = r ∧ ∀ i < L.n, L.sfld r i = f i

/-- The command's own checks pass (R82, R87, R101, R102, R165). -/
def Instr.Accepted (s : State) : Instr → Prop
  | .computeLayout n cw =>
    1 ≤ n.toNat ∧ n.toNat ≤ 64 ∧ (∀ i < n.toNat, 1 ≤ (s.ports.lane i).toNat) ∧
      (s.ports.widthList n.toNat).sum ≤ container (s.ports.widthList n.toNat).sum cw
  | .layoutRead sel i => sel.indexed = true → i.toNat < s.lay.n
  | .unpackUnsigned i => i.toNat < s.lay.n
  | .unpackSigned i => i.toNat < s.lay.n
  | .slice first last => first.toNat < last.toNat ∧ last.toNat ≤ s.lay.n
  | .pack => True
  | .equal => True
  | .addWrap => True
  | .subWrap => True
  | .addUnsignedSaturate => True
  | .subUnsignedSaturate => True
  | .addSignedSaturate => True
  | .subSignedSaturate => True
  | .minUnsigned => True
  | .maxUnsigned => True
  | .minSigned => True
  | .maxSigned => True
  | .shiftLeft => True
  | .shiftRightUnsigned => True

/-- `computeLayout` is the one command that needs no layout and writes one (R80, R84). -/
def Instr.isComputeLayout : Instr → Bool
  | .computeLayout _ _ => true
  | .layoutRead _ _ => false
  | .pack => false
  | .unpackUnsigned _ => false
  | .unpackSigned _ => false
  | .equal => false
  | .addWrap => false
  | .subWrap => false
  | .addUnsignedSaturate => false
  | .subUnsignedSaturate => false
  | .addSignedSaturate => false
  | .subSignedSaturate => false
  | .minUnsigned => false
  | .maxUnsigned => false
  | .minSigned => false
  | .maxSigned => false
  | .slice _ _ => false
  | .shiftLeft => false
  | .shiftRightUnsigned => false

/-- The faults a legal command can raise (R192), `E_ILLCMD` apart. -/
def Instr.faultCodes : Instr → List ErrCode
  | .computeLayout _ _ => [.empty, .zerow, .toowide]
  | .layoutRead sel _ => if sel.indexed then [.nolayout, .index] else [.nolayout]
  | .unpackUnsigned _ => [.nolayout, .index]
  | .unpackSigned _ => [.nolayout, .index]
  | .slice _ _ => [.nolayout, .slice]
  | .pack => [.nolayout]
  | .equal => [.nolayout]
  | .addWrap => [.nolayout]
  | .subWrap => [.nolayout]
  | .addUnsignedSaturate => [.nolayout]
  | .subUnsignedSaturate => [.nolayout]
  | .addSignedSaturate => [.nolayout]
  | .subSignedSaturate => [.nolayout]
  | .minUnsigned => [.nolayout]
  | .maxUnsigned => [.nolayout]
  | .minSigned => [.nolayout]
  | .maxSigned => [.nolayout]
  | .shiftLeft => [.nolayout]
  | .shiftRightUnsigned => [.nolayout]

/-- `p` and `q` agree on the data inputs the command reads (R66). -/
def Instr.SameInputs (s : State) (p q : Ports) : Instr → Prop
  | .computeLayout n _ => ∀ i < n.toNat, p.lane i = q.lane i
  | .layoutRead _ _ => True
  | .pack => ∀ i < s.lay.n, p.lane i = q.lane i
  | .unpackUnsigned _ => p.A = q.A
  | .unpackSigned _ => p.A = q.A
  | .slice _ _ => p.A = q.A
  | .equal => p.A = q.A ∧ p.B = q.B
  | .addWrap => p.A = q.A ∧ p.B = q.B
  | .subWrap => p.A = q.A ∧ p.B = q.B
  | .addUnsignedSaturate => p.A = q.A ∧ p.B = q.B
  | .subUnsignedSaturate => p.A = q.A ∧ p.B = q.B
  | .addSignedSaturate => p.A = q.A ∧ p.B = q.B
  | .subSignedSaturate => p.A = q.A ∧ p.B = q.B
  | .minUnsigned => p.A = q.A ∧ p.B = q.B
  | .maxUnsigned => p.A = q.A ∧ p.B = q.B
  | .minSigned => p.A = q.A ∧ p.B = q.B
  | .maxSigned => p.A = q.A ∧ p.B = q.B
  | .shiftLeft => p.A = q.A ∧ p.B = q.B
  | .shiftRightUnsigned => p.A = q.A ∧ p.B = q.B

/-- The commands whose result is a packed word of the current layout (R106). -/
def Instr.returnsPacked : Instr → Bool
  | .computeLayout _ _ => false
  | .layoutRead _ _ => false
  | .unpackUnsigned _ => false
  | .unpackSigned _ => false
  | .equal => false
  | .slice _ _ => false
  | .pack => true
  | .addWrap => true
  | .subWrap => true
  | .addUnsignedSaturate => true
  | .subUnsignedSaturate => true
  | .addSignedSaturate => true
  | .subSignedSaturate => true
  | .minUnsigned => true
  | .maxUnsigned => true
  | .minSigned => true
  | .maxSigned => true
  | .shiftLeft => true
  | .shiftRightUnsigned => true

end Sys2Proof.Machine

namespace Sys2Proof

/-- The opcodes whose row of R63 uses `f1`: `n`, `i` or `first`. -/
def opcodesWithF1 : List (BitVec 8) := [0x01, 0x02, 0x11, 0x12, 0x50]

/-- The opcodes whose row of R63 uses `f2`: `sel` or `last`. -/
def opcodesWithF2 : List (BitVec 8) := [0x02, 0x50]

/-- The nineteen opcodes of R63. -/
def opcodes : List (BitVec 8) :=
  [0x01, 0x02, 0x10, 0x11, 0x12, 0x13, 0x20, 0x21, 0x30, 0x31, 0x32, 0x33, 0x40, 0x41, 0x42, 0x43, 0x50, 0x60, 0x61]

/-- R64, condition by condition: when a command word is illegal. -/
def IllegalWord (w : CmdWord) : Prop :=
  zeroField w ≠ 0 ∨
  opField w ∉ opcodes ∨
  (opField w ∉ opcodesWithF1 ∧ f1Field w ≠ 0) ∨
  (opField w ∉ opcodesWithF2 ∧ f2Field w ≠ 0) ∨
  (opField w ≠ 0x01 ∧ cwField w ≠ 0) ∨
  (opField w = 0x01 ∧ 5 ≤ (cwField w).toNat) ∨
  (opField w = 0x02 ∧ 8 < (f2Field w).toNat) ∨
  (opField w = 0x02 ∧ (f2Field w).toNat ≤ 5 ∧ f1Field w ≠ 0)

end Sys2Proof
end

