-- ==== Sys2Proof/Certificates/Slice0/Obligations.lean ====
section
/-! DEFINITION. The statements for the provers. Each docstring names the rule of spec/ it formalises. A statement about
one command gives the whole next state: `{ s with RES := r, RVALID := true }` says that `RES` holds `r`, `RVALID` is 1,
and EVERY other register, the layout registers among them, is unchanged (R22, R35; there are no flags, R38). -/

open Sys2Proof Sys2Proof.Machine

/-! ## The command word -/

/-- R61, R63, R65: decoding the word of a well-formed command gives the command back, for all nineteen commands and
every operand value. -/
def Obligations.DecodeAfterEncode : Prop :=
  ∀ i : Instr, i.wellFormed = true → decode (encode i) = .ok i

/-- R63, R64: a command has one word. A word the decoder accepts is the word of the (well-formed) command it reads. -/
def Obligations.EncodeAfterDecode : Prop :=
  ∀ (w : CmdWord) (i : Instr), decode w = .ok i → i.wellFormed = true ∧ encode i = w

/-- R65, last paragraph: the decoder accepts a word exactly when it meets the mask, match and constraints of some row of
opcode_table.json, and the command it reads is that row's; so no word meets two rows. -/
def Obligations.DecoderAgreesWithOpcodeTable : Prop :=
  ∀ w : CmdWord,
    (∀ i, decode w = .ok i → ∃ r ∈ opcodeRows, r.accepts w = true ∧ r.mnemonic = i.mnemonic) ∧
    (∀ r ∈ opcodeRows, r.accepts w = true → ∃ i, decode w = .ok i ∧ i.mnemonic = r.mnemonic)

/-- R64: the decoder rejects exactly the words that R64 calls illegal, whatever the layout, and such a word raises
`E_ILLCMD` with the fault entry of R194, with or without a layout. (The queue it is presented from is the model's form of
the host, log entry 1.) -/
def Obligations.IllegalWordsRaiseIllcmd : Prop :=
  (∀ w : CmdWord, (∃ e, decode w = .error e) ↔ IllegalWord w) ∧
  (∀ (s : State) (p : Ports) (rest : List Ports), s.pending = p :: rest → p.RESET = false → s.FAULT = false →
    IllegalWord p.CMD →
    ∃ t, step s = .next t ∧ State.FaultEntry { s with ports := p, pending := rest } .illcmd t)

/-- Words written out in the spec's own examples (R80, R87, R101, R165; 95_test_vectors.md) decode to the commands they
stand for. -/
def Obligations.SpecWordsDecode : Prop :=
  decode 0x00000301 = .ok (.computeLayout 3 .auto) ∧
  decode 0x00C00301 = .ok (.computeLayout 3 .c32) ∧
  decode 0x00038202 = .ok (.layoutRead .offset 2) ∧
  decode 0x00000010 = .ok .pack ∧
  decode 0x00000111 = .ok (.unpackUnsigned 1) ∧
  decode 0x00000021 = .ok .subWrap ∧
  decode 0x00000033 = .ok .subSignedSaturate ∧
  decode 0x00000042 = .ok .minSigned ∧
  decode 0x00018150 = .ok (.slice 1 3) ∧
  decode 0x00000061 = .ok .shiftRightUnsigned

/-! ## Steps, reset and the refused command -/

/-- R9, R193, with the host's queue and the sampled ports as log entry 1 has them: when the host presents a legal word
to a unit that is not faulted, without `RESET`, the step is the command's meaning at that state with the ports sampled
and the presentation taken off the host's queue. -/
def Obligations.StepRunsDecodedCommand : Prop :=
  ∀ (s : State) (p : Ports) (rest : List Ports) (i : Instr), s.pending = p :: rest → p.RESET = false →
    s.FAULT = false → decode p.CMD = .ok i →
    step s = exec i { s with ports := p, pending := rest }

/-- The fetch of the host's interface, the model's own (log entry 1): a word placed by `withFetchWord` in a unit
that is not faulted is the command the next step runs. -/
def Obligations.PlacedWordIsRunNext : Prop :=
  ∀ (s : State) (w : Nat) (i : Instr), s.FAULT = false → decodeTableWord 32 w = some i →
    ∃ p rest, step (s.withFetchWord 32 w) = exec i { s with ports := p, pending := rest } ∧
      p.CMD = BitVec.ofNat 32 w

/-- R220: `RESET` wins over the command presented with it and puts the four registers that have a reset value into the
state of R41; no other event clears `FAULT` or returns to `LVALID = 0`; with nothing presented the unit waits.
The model's choices in it: that `RESET` is a presentation of the host's queue (log entry 15), that the presentation is
taken off the queue and its ports stand in the state although R20 samples them only when a command is taken, and that
an empty queue leaves the state as it is (log entry 1). -/
def Obligations.ResetIsTheOnlyWayBack : Prop :=
  (∀ (s : State) (p : Ports) (rest : List Ports), s.pending = p :: rest → p.RESET = true →
    ∃ t, step s = .next t ∧ t.AfterReset ∧ t.ports = p ∧ t.pending = rest) ∧
  (∀ s t : State, step s = .next t → (s.FAULT = true ∧ t.FAULT = false) ∨ (s.LVALID = true ∧ t.LVALID = false) →
    ∃ p rest, s.pending = p :: rest ∧ p.RESET = true) ∧
  (∀ s : State, s.pending = [] → step s = .next s) ∧
  State.reset.AfterReset

/-- R41: the registers that the spec gives a reset value. (The other registers' values at power-on are the model's
choice, log entry 3, and are not stated.) -/
def Obligations.ResetValues : Prop :=
  State.reset.LVALID = false ∧ State.reset.FAULT = false ∧ State.reset.ERR = 0 ∧ State.reset.RVALID = false

/-- R196: a command presented to a faulted unit changes no register, whatever its word; and along any number of steps
without `RESET` the fault, its code and every other register stay as they are, and there is no result.
The model's choices in it: that `RES` too is the same over a refusal, for which the model follows R196 against R35's
"leaves `RES` unspecified" (log entry 4), and that the refused presentation's ports stand in the state (log entry 1). -/
def Obligations.FaultedUnitRefusesEveryCommand : Prop :=
  (∀ (s : State) (p : Ports) (rest : List Ports), s.pending = p :: rest → p.RESET = false → s.FAULT = true →
    step s = .next { s with ports := p, pending := rest }) ∧
  (∀ (k : Nat) (s : State), s.Inv → s.FAULT = true → (∀ p ∈ s.pending, p.RESET = false) →
    ∃ t, core.run k s = .next t ∧ t.FAULT = true ∧ t.ERR = s.ERR ∧ t.RVALID = false ∧ t.RES = s.RES ∧
      t.LVALID = s.LVALID ∧ t.lay = s.lay)

/-- R227 ("every command completes"), R223 ("Every run terminates"): a command, a step and any number of steps end in a
next state; the model never stops. (A step with nothing presented is the model's, log entry 1.) -/
def Obligations.EveryCommandCompletes : Prop :=
  (∀ (i : Instr) (s : State), ∃ t, exec i s = .next t) ∧ (∀ s : State, ∃ t, step s = .next t) ∧
  (∀ (k : Nat) (s : State), ∃ t, core.run k s = .next t)

/-- The invariant of the unit (`State.Inv`: R23, R33, R34, R35, R191, R222) is kept by every step. -/
def Obligations.StepKeepsInvariant : Prop :=
  ∀ s t : State, s.Inv → step s = .next t → t.Inv

/-- The invariant holds at power-on. -/
def Obligations.ResetMeetsInvariant : Prop := State.reset.Inv

/-! ## Faults -/

/-- R194: a command that raises a fault sets `FAULT`, puts a code of R191 into `ERR`, clears `RVALID`, and changes
nothing else (`RES` is unspecified); so does every presentation that raises one, an illegal word
included. (The queue it is presented from is the model's form of the host, log entry 1.) -/
def Obligations.FaultEntryChangesNothingElse : Prop :=
  (∀ (i : Instr) (s t : State), s.FAULT = false → exec i s = .next t → t.FAULT = true →
    ∃ c : ErrCode, s.FaultEntry c t ∧ c ∈ Instr.faultCodes i) ∧
  (∀ s t : State, s.FAULT = false → step s = .next t → t.FAULT = true →
    ∃ p rest c, s.pending = p :: rest ∧ State.FaultEntry { s with ports := p, pending := rest } c t)

/-- R192: the faults each command can raise, and no other pairing: a step that raises a fault found either an illegal
word and raises `E_ILLCMD`, or a legal command and raises one of that command's own codes. -/
def Obligations.OnlyListedFaultsOccur : Prop :=
  ∀ s t : State, s.FAULT = false → step s = .next t → t.FAULT = true →
    ∃ p rest, s.pending = p :: rest ∧
      ((IllegalWord p.CMD ∧ t.ERR = ErrCode.code .illcmd) ∨
       ∃ i c, decode p.CMD = .ok i ∧ c ∈ Instr.faultCodes i ∧ t.ERR = ErrCode.code c)

/-- R23, R192, R193 (3): every command but `computeLayout` raises `E_NOLAYOUT` while `LVALID = 0`, before its own
checks and whatever the layout registers hold. -/
def Obligations.NoLayoutFault : Prop :=
  ∀ (i : Instr) (s : State), Instr.isComputeLayout i = false → s.LVALID = false →
    ∃ t, exec i s = .next t ∧ s.FaultEntry .nolayout t

/-- R82: the checks of `computeLayout` in their order, with the exact sum; with or without a layout. -/
def Obligations.ComputeLayoutFaultOrder : Prop :=
  ∀ (s : State) (n : BitVec 7) (cw : ContainerChoice),
    (n = 0 → ∃ t, exec (.computeLayout n cw) s = .next t ∧ s.FaultEntry .empty t) ∧
    (64 < n.toNat → ∃ t, exec (.computeLayout n cw) s = .next t ∧ s.FaultEntry .toowide t) ∧
    (n.toNat ≤ 64 → (∃ i < n.toNat, s.ports.lane i = 0) →
      ∃ t, exec (.computeLayout n cw) s = .next t ∧ s.FaultEntry .zerow t) ∧
    (n ≠ 0 → n.toNat ≤ 64 → (∀ i < n.toNat, s.ports.lane i ≠ 0) →
      (cw = .auto ∧ 64 < ((List.range n.toNat).map fun i => (s.ports.lane i).toNat).sum) ∨
      (cw = .c8 ∧ 8 < ((List.range n.toNat).map fun i => (s.ports.lane i).toNat).sum) ∨
      (cw = .c16 ∧ 16 < ((List.range n.toNat).map fun i => (s.ports.lane i).toNat).sum) ∨
      (cw = .c32 ∧ 32 < ((List.range n.toNat).map fun i => (s.ports.lane i).toNat).sum) ∨
      (cw = .c64 ∧ 64 < ((List.range n.toNat).map fun i => (s.ports.lane i).toNat).sum) →
      ∃ t, exec (.computeLayout n cw) s = .next t ∧ s.FaultEntry .toowide t)

/-! ## The field-layout compiler -/

/-- R80, R83: an accepted `computeLayout` completes, with or without a layout before it, and leaves in the layout
registers the constants of its width list; `RES` is 0 and nothing else changes. (`freeCount` is the model's counter of
unspecified values.) -/
def Obligations.ComputeLayoutCompilesWidths : Prop :=
  ∀ (s : State) (n : BitVec 7) (cw : ContainerChoice), Instr.Accepted s (.computeLayout n cw) →
    ∃ L k, exec (.computeLayout n cw) s =
        .next { s with LVALID := true, lay := L, RES := 0, RVALID := true, freeCount := k } ∧
      L.n = n.toNat ∧
      (∀ i < n.toNat, L.width i = (s.ports.lane i).toNat) ∧
      (∀ i < n.toNat, L.offset i = ((List.range i).map fun j => (s.ports.lane j).toNat).sum) ∧
      (∀ i < n.toNat, (L.fieldMask i).toNat = (2 ^ L.width i - 1) * 2 ^ L.offset i) ∧
      L.LSUM.toNat = ((List.range n.toNat).map fun j => (s.ports.lane j).toNat).sum ∧
      L.LC.toNat = container L.LSUM.toNat cw ∧
      L.LLO.toNat = ((List.range n.toNat).map fun i => 2 ^ L.offset i).sum ∧
      L.LHI.toNat = ((List.range n.toNat).map fun i => 2 ^ (L.offset i + L.width i - 1)).sum ∧
      L.LVM.toNat = 2 ^ L.LSUM.toNat - 1

/-- R81: the automatic container is the smallest of 8, 16, 32, 64 that holds the widths; a named one is taken if it
does and faults if it does not; and the choice changes `LC` and nothing else. That the entries at an index `LN` or
above, unspecified by R83, are the same under both choices is the model's choice (log entry 2). -/
def Obligations.ContainerSelection : Prop :=
  (∀ S, 1 ≤ S → S ≤ 64 → container S .auto ∈ Config.containers ∧ S ≤ container S .auto ∧
    ∀ C ∈ Config.containers, S ≤ C → container S .auto ≤ C) ∧
  (∀ S, container S .c8 = 8 ∧ container S .c16 = 16 ∧ container S .c32 = 32 ∧ container S .c64 = 64) ∧
  (∀ (s : State) (n : BitVec 7) (cw cw' : ContainerChoice),
    Instr.Accepted s (.computeLayout n cw) → Instr.Accepted s (.computeLayout n cw') →
    ∃ t t', exec (.computeLayout n cw) s = .next t ∧ exec (.computeLayout n cw') s = .next t' ∧
      t.lay.LC.toNat = container t.lay.LSUM.toNat cw ∧
      t' = { t with lay := { t.lay with LC := t'.lay.LC } }) ∧
  (∀ (s : State) (n : BitVec 7) (cw : ContainerChoice), 1 ≤ n.toNat → n.toNat ≤ 64 →
    (∀ i < n.toNat, 1 ≤ (s.ports.lane i).toNat) →
    container (s.ports.widthList n.toNat).sum cw < (s.ports.widthList n.toNat).sum →
    ∃ t, exec (.computeLayout n cw) s = .next t ∧ s.FaultEntry .toowide t)

/-- R33: what holds of the masks of a compiled layout: the field masks are disjoint, every mask lies inside `LVM`, each
field has exactly one low bit and one high bit, `LLO` and `LHI` have `LN` bits each, the top bits are the low bits moved
down by one, and `LVM` fits the container. -/
def Obligations.LayoutInvariants : Prop :=
  ∀ s : State, s.Inv → s.LVALID = true →
    (∀ i < s.lay.n, ∀ j < s.lay.n, i ≠ j → s.lay.fieldMask i &&& s.lay.fieldMask j = 0) ∧
    (s.lay.LLO ||| s.lay.LHI) &&& ~~~s.lay.LVM = 0 ∧
    (∀ i < s.lay.n, s.lay.LLO &&& s.lay.fieldMask i = BitVec.ofNat 64 (2 ^ s.lay.offset i)) ∧
    (∀ i < s.lay.n, s.lay.LHI &&& s.lay.fieldMask i = BitVec.ofNat 64 (2 ^ s.lay.top i)) ∧
    ((List.range 64).countP fun b => s.lay.LLO.getLsbD b) = s.lay.n ∧
    ((List.range 64).countP fun b => s.lay.LHI.getLsbD b) = s.lay.n ∧
    s.lay.LHI = ((s.lay.LLO >>> 1) ||| BitVec.ofNat 64 (2 ^ (s.lay.LSUM.toNat - 1))) &&& s.lay.LVM ∧
    s.lay.LSUM.toNat ≤ s.lay.LC.toNat ∧
    s.lay.LVM = BitVec.ofNat 64 (ones s.lay.LSUM.toNat)

/-- R84, R86: a successful `computeLayout` leaves a compiled layout; a faulting one and every other command leave the
layout registers as they were; so do all steps but a successful `computeLayout` and `RESET`. -/
def Obligations.LayoutStaysUntilReplaced : Prop :=
  (∀ (s t : State) (n : BitVec 7) (cw : ContainerChoice), s.FAULT = false →
    exec (.computeLayout n cw) s = .next t →
    (t.FAULT = false ∧ t.LVALID = true ∧ t.lay.WF) ∨ (t.FAULT = true ∧ t.LVALID = s.LVALID ∧ t.lay = s.lay)) ∧
  (∀ (i : Instr) (s t : State), Instr.isComputeLayout i = false → exec i s = .next t →
    t.LVALID = s.LVALID ∧ t.lay = s.lay) ∧
  (∀ s t : State, step s = .next t → t.LVALID ≠ s.LVALID ∨ t.lay ≠ s.lay →
    ∃ p rest, s.pending = p :: rest ∧ (p.RESET = true ∨
      ∃ n cw, decode p.CMD = .ok (.computeLayout n cw) ∧
        Instr.Accepted { s with ports := p, pending := rest } (.computeLayout n cw)))

/-- R87, R88: the word of each selector of `layout_read`, a reserved selector being illegal; `E_NOLAYOUT` and `E_INDEX`;
and otherwise the selected register, zero-extended, with nothing changed but the result. -/
def Obligations.LayoutReadReturnsRegister : Prop :=
  (decode 0x00000002 = .ok (.layoutRead .n 0) ∧ decode 0x00008002 = .ok (.layoutRead .cbits 0) ∧
    decode 0x00010002 = .ok (.layoutRead .sumw 0) ∧ decode 0x00018002 = .ok (.layoutRead .lomask 0) ∧
    decode 0x00020002 = .ok (.layoutRead .himask 0) ∧ decode 0x00028002 = .ok (.layoutRead .validbits 0)) ∧
  (∀ k : BitVec 7, decode (0x00030002 ||| k.setWidth 32 <<< 8) = .ok (.layoutRead .width k) ∧
    decode (0x00038002 ||| k.setWidth 32 <<< 8) = .ok (.layoutRead .offset k) ∧
    decode (0x00040002 ||| k.setWidth 32 <<< 8) = .ok (.layoutRead .fieldmask k)) ∧
  (∀ w : CmdWord, opField w = 0x02 → 8 < (f2Field w).toNat → ∃ e, decode w = .error e) ∧
  (∀ (s : State) (sel : Selector) (k : BitVec 7), s.LVALID = false →
    ∃ t, exec (.layoutRead sel k) s = .next t ∧ s.FaultEntry .nolayout t) ∧
  (∀ (s : State) (sel : Selector) (k : BitVec 7), s.Ready → sel.indexed = true → s.lay.n ≤ k.toNat →
    ∃ t, exec (.layoutRead sel k) s = .next t ∧ s.FaultEntry .index t) ∧
  (∀ (s : State) (sel : Selector) (k : BitVec 7), s.Ready → (sel.indexed = true → k.toNat < s.lay.n) →
    ∃ r : Word, exec (.layoutRead sel k) s = .next { s with RES := r, RVALID := true } ∧
      (sel = .n → r.toNat = s.lay.LN.toNat) ∧
      (sel = .cbits → r.toNat = s.lay.LC.toNat) ∧
      (sel = .sumw → r.toNat = s.lay.LSUM.toNat) ∧
      (sel = .lomask → r = s.lay.LLO) ∧
      (sel = .himask → r = s.lay.LHI) ∧
      (sel = .validbits → r = s.lay.LVM) ∧
      (sel = .width → ∃ h : k.toNat < 64, r.toNat = (s.lay.LW[k.toNat]'h).toNat) ∧
      (sel = .offset → ∃ h : k.toNat < 64, r.toNat = (s.lay.LOFF[k.toNat]'h).toNat) ∧
      (sel = .fieldmask → ∃ h : k.toNat < 64, r = s.lay.LFM[k.toNat]'h))

/-! ## The codec -/

/-- R100: the word of `pack`; `E_NOLAYOUT` without a layout; under one it completes for all lane values and puts lane
`i`, modulo `2^LW[i]`, into field `i`; nothing else is in the word. -/
def Obligations.PackStoresEachLane : Prop :=
  decode 0x00000010 = .ok .pack ∧
  (∀ s : State, s.LVALID = false → ∃ t, exec .pack s = .next t ∧ s.FaultEntry .nolayout t) ∧
  (∀ s : State, s.Ready →
    ∃ r : Word, exec .pack s = .next { s with RES := r, RVALID := true } ∧
      s.lay.Holds r fun i => (s.ports.lane i).toNat % 2 ^ s.lay.width i)

/-- R101: the word of `unpack_unsigned`; `E_NOLAYOUT`; `E_INDEX` for `i >= LN`; otherwise bits `LOFF[i]` to `top(i)` of
`A`, zero-extended. -/
def Obligations.UnpackUnsignedReturnsField : Prop :=
  (∀ k : BitVec 7, decode (0x00000011 ||| k.setWidth 32 <<< 8) = .ok (.unpackUnsigned k)) ∧
  (∀ (s : State) (k : BitVec 7), s.LVALID = false →
    ∃ t, exec (.unpackUnsigned k) s = .next t ∧ s.FaultEntry .nolayout t) ∧
  (∀ (s : State) (k : BitVec 7), s.Ready → s.lay.n ≤ k.toNat →
    ∃ t, exec (.unpackUnsigned k) s = .next t ∧ s.FaultEntry .index t) ∧
  (∀ (s : State) (k : BitVec 7), s.Ready → k.toNat < s.lay.n →
    ∃ r : Word, exec (.unpackUnsigned k) s = .next { s with RES := r, RVALID := true } ∧
      r.toNat = s.ports.A.toNat / 2 ^ s.lay.offset k.toNat % 2 ^ s.lay.width k.toNat)

/-- R102: the word of `unpack_signed`; `E_NOLAYOUT`; `E_INDEX` for `i >= LN`; otherwise the field read in two's
complement, in its range, sign-extended to 64 bits; and the value is that of the source's container-width formula. -/
def Obligations.UnpackSignedReturnsField : Prop :=
  (∀ k : BitVec 7, decode (0x00000012 ||| k.setWidth 32 <<< 8) = .ok (.unpackSigned k)) ∧
  (∀ (s : State) (k : BitVec 7), s.LVALID = false →
    ∃ t, exec (.unpackSigned k) s = .next t ∧ s.FaultEntry .nolayout t) ∧
  (∀ (s : State) (k : BitVec 7), s.Ready → s.lay.n ≤ k.toNat →
    ∃ t, exec (.unpackSigned k) s = .next t ∧ s.FaultEntry .index t) ∧
  (∀ (s : State) (k : BitVec 7), s.Ready → k.toNat < s.lay.n →
    ∃ r : Word, exec (.unpackSigned k) s = .next { s with RES := r, RVALID := true } ∧
      r.toInt = s.lay.sfld s.ports.A k.toNat ∧
      -((2 ^ (s.lay.width k.toNat - 1) : Nat) : Int) ≤ r.toInt ∧
      r.toInt ≤ ((2 ^ (s.lay.width k.toNat - 1) : Nat) : Int) - 1 ∧
      s.lay.unpackSignedByContainer s.ports.A k.toNat = r.toInt)

/-- R103: the word of `equal`; `E_NOLAYOUT`; otherwise 1 when the operands agree inside `LVM` and 0 when they do not, and
that is agreement in every field. -/
def Obligations.EqualComparesFields : Prop :=
  decode 0x00000013 = .ok .equal ∧
  (∀ s : State, s.LVALID = false → ∃ t, exec .equal s = .next t ∧ s.FaultEntry .nolayout t) ∧
  (∀ s : State, s.Ready →
    ∃ r : Word, exec .equal s = .next { s with RES := r, RVALID := true } ∧
      (s.lay.conf s.ports.A = s.lay.conf s.ports.B → r = 1) ∧
      (s.lay.conf s.ports.A ≠ s.lay.conf s.ports.B → r = 0) ∧
      (r = 1 ↔ ∀ i < s.lay.n, s.lay.fld s.ports.A i = s.lay.fld s.ports.B i))

/-- R105: unpacking what `pack` returned gives each value modulo `2^LW[i]`, unsigned or signed; and packing the fields
of a conformant word returns the word. -/
def Obligations.PackUnpackRoundTrip : Prop :=
  (∀ (s t : State) (k : BitVec 7), s.Ready → k.toNat < s.lay.n → exec .pack s = .next t →
    (∃ u, exec (.unpackUnsigned k) { t with ports := { t.ports with A := t.RES } } = .next u ∧ u.RVALID = true ∧
      u.RES.toNat = (s.ports.lane k.toNat).toNat % 2 ^ s.lay.width k.toNat) ∧
    (∃ u, exec (.unpackSigned k) { t with ports := { t.ports with A := t.RES } } = .next u ∧ u.RVALID = true ∧
      u.RES.toInt = sgn ((s.ports.lane k.toNat).toNat % 2 ^ s.lay.width k.toNat) (s.lay.width k.toNat))) ∧
  (∀ (s t : State) (p : Word), s.Ready → s.lay.conf p = p →
    (∀ i < s.lay.n, (s.ports.lane i).toNat = s.lay.fld p i) → exec .pack s = .next t → t.RES = p)

/-- R106: the result of every command that returns a packed word is conformant to the current layout, and the result of
`slice` to its sub-layout, whatever bits the operands carry outside the fields. -/
def Obligations.PackedResultsAreConformant : Prop :=
  (∀ (i : Instr) (s t : State), s.Ready → Instr.returnsPacked i = true → exec i s = .next t →
    t.RES &&& ~~~s.lay.LVM = 0) ∧
  (∀ (s t : State) (first last : BitVec 7) (k : Nat), s.Ready → Instr.Accepted s (.slice first last) →
    exec (.slice first last) s = .next t →
    t.RES &&& ~~~(s.lay.subLayout k first.toNat last.toNat).LVM = 0)

/-! ## The masked adder, wrapping -/

/-- R120: `add_wrap` adds field by field, modulo `2^LW[i]`; bits of the operands outside the fields do not count. -/
def Obligations.AddWrapAddsEachField : Prop :=
  ∀ s : State, s.Ready →
    ∃ r : Word, exec .addWrap s = .next { s with RES := r, RVALID := true } ∧
      s.lay.Holds r fun i => (s.lay.fld s.ports.A i + s.lay.fld s.ports.B i) % 2 ^ s.lay.width i

/-- R121: `sub_wrap` subtracts field by field, modulo `2^LW[i]`. -/
def Obligations.SubWrapSubtractsEachField : Prop :=
  ∀ s : State, s.Ready →
    ∃ r : Word, exec .subWrap s = .next { s with RES := r, RVALID := true } ∧
      s.lay.Holds r fun i =>
        (s.lay.fld s.ports.A i + (2 ^ s.lay.width i - s.lay.fld s.ports.B i)) % 2 ^ s.lay.width i

/-- R120: the source's loop-free closed form of `add_wrap` equals the per-field definition for all operand words. -/
def Obligations.AddWrapClosedForm : Prop :=
  ∀ (L : Layout) (A B : Word), L.WF → L.addWrap A B = L.addWrapClosed A B

/-- R121: both closed forms of `sub_wrap` equal the per-field definition for all operand words. -/
def Obligations.SubWrapClosedForms : Prop :=
  ∀ (L : Layout) (A B : Word), L.WF → L.subWrap A B = L.subWrapClosed A B ∧ L.subWrap A B = L.subWrapClosed2 A B

/-- R122: with `add_wrap` the words are a commutative group in each field: commutative, associative, the zero word the
identity, `sub_wrap 0, b` the inverse of `b`; `sub_wrap` undoes `add_wrap`; and no result depends on `LC`. -/
def Obligations.WrapLaws : Prop :=
  ∀ (L : Layout) (a b c : Word), L.WF →
    (∀ i < L.n, L.fld (L.addWrap a b) i = (L.fld a i + L.fld b i) % 2 ^ L.width i) ∧
    L.addWrap a b = L.addWrap b a ∧
    L.addWrap (L.addWrap a b) c = L.addWrap a (L.addWrap b c) ∧
    L.addWrap a 0 = L.conf a ∧
    L.addWrap b (L.subWrap 0 b) = 0 ∧
    L.subWrap (L.addWrap a b) b = L.conf a ∧
    (∀ C : BitVec 7, Layout.addWrap { L with LC := C } a b = L.addWrap a b ∧
      Layout.subWrap { L with LC := C } a b = L.subWrap a b)

/-! ## The masked adder, saturating -/

/-- R132: `add_unsigned_saturate` adds field by field and clamps at `2^LW[i] - 1`. -/
def Obligations.AddUnsignedSaturateClamps : Prop :=
  ∀ s : State, s.Ready →
    ∃ r : Word, exec .addUnsignedSaturate s = .next { s with RES := r, RVALID := true } ∧
      s.lay.Holds r fun i => min (s.lay.fld s.ports.A i + s.lay.fld s.ports.B i) (2 ^ s.lay.width i - 1)

/-- R134: `sub_unsigned_saturate` subtracts field by field and clamps at 0 (natural subtraction stops at 0). -/
def Obligations.SubUnsignedSaturateClamps : Prop :=
  ∀ s : State, s.Ready →
    ∃ r : Word, exec .subUnsignedSaturate s = .next { s with RES := r, RVALID := true } ∧
      s.lay.Holds r fun i => s.lay.fld s.ports.A i - s.lay.fld s.ports.B i

/-- R136: `add_signed_saturate` adds field by field in two's complement and clamps to the signed range of the field. -/
def Obligations.AddSignedSaturateClamps : Prop :=
  ∀ s : State, s.Ready →
    ∃ r : Word, exec .addSignedSaturate s = .next { s with RES := r, RVALID := true } ∧
      s.lay.HoldsSigned r fun i => clamps (s.lay.sfld s.ports.A i + s.lay.sfld s.ports.B i) (s.lay.width i)

/-- R138: `sub_signed_saturate` subtracts field by field in two's complement and clamps to the signed range. -/
def Obligations.SubSignedSaturateClamps : Prop :=
  ∀ s : State, s.Ready →
    ∃ r : Word, exec .subSignedSaturate s = .next { s with RES := r, RVALID := true } ∧
      s.lay.HoldsSigned r fun i => clamps (s.lay.sfld s.ports.A i - s.lay.sfld s.ports.B i) (s.lay.width i)

/-- R130: bit `top(i)` of the carry vector is 1 exactly when field `i` overflows, and all other bits are 0. -/
def Obligations.CarryVectorMarksOverflow : Prop :=
  ∀ (L : Layout) (a b : Word), L.WF → L.conf a = a → L.conf b = b →
    (∀ i < L.n, ((L.carry a b).getLsbD (L.top i) = true ↔ 2 ^ L.width i ≤ L.fld a i + L.fld b i)) ∧
    L.carry a b &&& ~~~L.LHI = 0

/-- R135, R137: bit `top(i)` of the signed-overflow vectors is 1 exactly when the true sum, or difference, of field `i`
lies outside its signed range, and all other bits are 0. -/
def Obligations.SignedOverflowVectors : Prop :=
  ∀ (L : Layout) (a b : Word), L.WF → L.conf a = a → L.conf b = b →
    (∀ i < L.n, ((L.ovadd a b).getLsbD (L.top i) = true ↔
      L.sfld a i + L.sfld b i < -((2 ^ (L.width i - 1) : Nat) : Int) ∨
      ((2 ^ (L.width i - 1) : Nat) : Int) - 1 < L.sfld a i + L.sfld b i)) ∧
    L.ovadd a b &&& ~~~L.LHI = 0 ∧
    (∀ i < L.n, ((L.ovsub a b).getLsbD (L.top i) = true ↔
      L.sfld a i - L.sfld b i < -((2 ^ (L.width i - 1) : Nat) : Int) ∨
      ((2 ^ (L.width i - 1) : Nat) : Int) - 1 < L.sfld a i - L.sfld b i)) ∧
    L.ovsub a b &&& ~~~L.LHI = 0

/-- R133: the saturation mask of a vector of top bits is `((v << 1) - low(v)) mod 2^64`, and for fields of one width `w`
`low(v) = v >> (w - 1)`. -/
def Obligations.SaturationMaskByShift : Prop :=
  ∀ (L : Layout) (v : Word), L.WF → v &&& ~~~L.LHI = 0 →
    L.bcast v = L.bcastByShift v ∧
    (∀ w, (∀ i < L.n, L.width i = w) → L.lowBits v = v >>> (w - 1))

/-- R132, R134: the closed forms of the unsigned saturating commands equal the per-field definitions. -/
def Obligations.UnsignedSaturateClosedForms : Prop :=
  ∀ (L : Layout) (A B : Word), L.WF →
    L.addUnsignedSaturate A B = L.addUnsignedSaturateClosed A B ∧
    L.subUnsignedSaturate A B = L.subUnsignedSaturateClosed A B ∧
    L.subUnsignedSaturate A B = L.subUnsignedSaturateClosed2 A B

/-- R136, R138: the closed forms of the signed saturating commands, with the select taken from the wrapped result or
from the operand's sign, equal the per-field definitions. -/
def Obligations.SignedSaturateClosedForms : Prop :=
  ∀ (L : Layout) (A B : Word), L.WF →
    L.addSignedSaturate A B = L.addSignedSaturateClosed A B (L.addWrap A B) ∧
    L.addSignedSaturate A B = L.addSignedSaturateClosed A B (~~~L.conf A) ∧
    L.subSignedSaturate A B = L.subSignedSaturateClosed A B (L.subWrap A B) ∧
    L.subSignedSaturate A B = L.subSignedSaturateClosed A B (~~~L.conf A)

/-! ## The min/max selector -/

/-- R152, R153: `min_unsigned` and `max_unsigned` return, field by field, the smaller and the larger unsigned field. -/
def Obligations.UnsignedMinMaxSelectsField : Prop :=
  ∀ s : State, s.Ready →
    (∃ r : Word, exec .minUnsigned s = .next { s with RES := r, RVALID := true } ∧
      s.lay.Holds r fun i => min (s.lay.fld s.ports.A i) (s.lay.fld s.ports.B i)) ∧
    (∃ r : Word, exec .maxUnsigned s = .next { s with RES := r, RVALID := true } ∧
      s.lay.Holds r fun i => max (s.lay.fld s.ports.A i) (s.lay.fld s.ports.B i))

/-- R154, R155: `min_signed` and `max_signed` return, field by field, the smaller and the larger signed field. -/
def Obligations.SignedMinMaxSelectsField : Prop :=
  ∀ s : State, s.Ready →
    (∃ r : Word, exec .minSigned s = .next { s with RES := r, RVALID := true } ∧
      s.lay.HoldsSigned r fun i => min (s.lay.sfld s.ports.A i) (s.lay.sfld s.ports.B i)) ∧
    (∃ r : Word, exec .maxSigned s = .next { s with RES := r, RVALID := true } ∧
      s.lay.HoldsSigned r fun i => max (s.lay.sfld s.ports.A i) (s.lay.sfld s.ports.B i))

/-- R150: bit `top(i)` of the borrow vector is 1 exactly when `fld(a,i) < fld(b,i)`, all other bits are 0, and the
formula computes the same vector. -/
def Obligations.BorrowVectorMarksLess : Prop :=
  ∀ (L : Layout) (a b : Word), L.WF → L.conf a = a → L.conf b = b →
    (∀ i < L.n, ((L.borrow a b).getLsbD (L.top i) = true ↔ L.fld a i < L.fld b i)) ∧
    L.borrow a b &&& ~~~L.LHI = 0 ∧
    L.borrow a b = L.borrowFormula a b

/-- R152 to R155: the source's constructions by borrow vector, broadcast and select, for the signed pair on sign-flipped
operands, equal the per-field definitions. -/
def Obligations.MinMaxClosedForms : Prop :=
  ∀ (L : Layout) (A B : Word), L.WF →
    L.minUnsigned A B = L.minUnsignedClosed A B ∧ L.maxUnsigned A B = L.maxUnsignedClosed A B ∧
    L.minSigned A B = L.minSignedClosed A B ∧ L.maxSigned A B = L.maxSignedClosed A B

/-- R156: minimum and maximum lose nothing: for conformant operands their XOR is `a ^ b`, unsigned and signed, and their
wrapping sum is that of the operands. -/
def Obligations.MinMaxLoseNothing : Prop :=
  ∀ (L : Layout) (a b : Word), L.WF → L.conf a = a → L.conf b = b →
    L.minUnsigned a b ^^^ L.maxUnsigned a b = a ^^^ b ∧
    L.minSigned a b ^^^ L.maxSigned a b = a ^^^ b ∧
    L.addWrap (L.minUnsigned a b) (L.maxUnsigned a b) = L.addWrap a b ∧
    L.addWrap (L.minSigned a b) (L.maxSigned a b) = L.addWrap a b

/-! ## The slicer -/

/-- R165: the word of `slice`; `E_NOLAYOUT`; `E_SLICE` if `first >= last` (an empty range included) or `last > LN`;
otherwise fields `first` to `last - 1`, moved down to bit 0 and zero-extended. -/
def Obligations.SliceExtractsRun : Prop :=
  (∀ first last : BitVec 7,
    decode (0x00000050 ||| first.setWidth 32 <<< 8 ||| last.setWidth 32 <<< 15) = .ok (.slice first last)) ∧
  (∀ (s : State) (first last : BitVec 7), s.LVALID = false →
    ∃ t, exec (.slice first last) s = .next t ∧ s.FaultEntry .nolayout t) ∧
  (∀ (s : State) (first last : BitVec 7), s.Ready → last.toNat ≤ first.toNat ∨ s.lay.n < last.toNat →
    ∃ t, exec (.slice first last) s = .next t ∧ s.FaultEntry .slice t) ∧
  (∀ (s : State) (first last : BitVec 7), s.Ready → first.toNat < last.toNat → last.toNat ≤ s.lay.n →
    ∃ r : Word, exec (.slice first last) s = .next { s with RES := r, RVALID := true } ∧
      r.toNat = (s.ports.A &&& s.lay.LVM).toNat / 2 ^ s.lay.offset first.toNat %
        2 ^ ((List.range (last.toNat - first.toNat)).map fun k => s.lay.width (first.toNat + k)).sum)

/-- R166: under the sub-layout, which is a compiled layout of `last - first` fields, field `k` of the slice is field
`first + k` of the operand; the layout registers keep the current layout. -/
def Obligations.SliceFieldsOfSubLayout : Prop :=
  ∀ (s t : State) (first last : BitVec 7) (c : Nat), s.Ready → first.toNat < last.toNat → last.toNat ≤ s.lay.n →
    exec (.slice first last) s = .next t →
    t.LVALID = s.LVALID ∧ t.lay = s.lay ∧
    (s.lay.subLayout c first.toNat last.toNat).WF ∧
    (∀ k < last.toNat - first.toNat, (s.lay.subLayout c first.toNat last.toNat).width k = s.lay.width (first.toNat + k) ∧
      (s.lay.subLayout c first.toNat last.toNat).offset k =
        s.lay.offset (first.toNat + k) - s.lay.offset first.toNat) ∧
    (s.lay.subLayout c first.toNat last.toNat).n = last.toNat - first.toNat ∧
    (s.lay.subLayout c first.toNat last.toNat).Holds t.RES fun k => s.lay.fld s.ports.A (first.toNat + k)

/-! ## The shift-and-mask unit -/

/-- R175: `shift_left` returns, field by field, `(value * 2^n) mod 2^LW[i]`, for every amount `n` of port `B`. -/
def Obligations.ShiftLeftShiftsEachField : Prop :=
  ∀ s : State, s.Ready →
    ∃ r : Word, exec .shiftLeft s = .next { s with RES := r, RVALID := true } ∧
      s.lay.Holds r fun i => (s.lay.fld s.ports.A i * 2 ^ s.ports.B.toNat) % 2 ^ s.lay.width i

/-- R176: `shift_right_unsigned` returns, field by field, `floor(value / 2^n)`, for every amount `n` of port `B`. -/
def Obligations.ShiftRightShiftsEachField : Prop :=
  ∀ s : State, s.Ready →
    ∃ r : Word, exec .shiftRightUnsigned s = .next { s with RES := r, RVALID := true } ∧
      s.lay.Holds r fun i => s.lay.fld s.ports.A i / 2 ^ s.ports.B.toNat

/-- R175, R176, R177: an amount of at least the total width, and so of at least the container width, gives the all-zero
word, and no amount faults. -/
def Obligations.LargeShiftsClearTheWord : Prop :=
  ∀ s : State, s.Ready → s.lay.LSUM.toNat ≤ s.ports.B.toNat →
    exec .shiftLeft s = .next { s with RES := 0, RVALID := true } ∧
    exec .shiftRightUnsigned s = .next { s with RES := 0, RVALID := true }

/-- R175, R176: the loop-free closed forms of the shifts equal the per-field definitions for all operand words. -/
def Obligations.ShiftClosedForms : Prop :=
  ∀ (L : Layout) (A B : Word), L.WF →
    L.shiftLeft A B = L.shiftLeftClosed A B ∧ L.shiftRightUnsigned A B = L.shiftRightUnsignedClosed A B

/-! ## Whole-machine rules -/

/-- R66, R35 (`RES` is never an input to a later command): a command's next state does not depend on a data input it
does not read, nor on the result registers. Where the command faults, R194 leaves `RES` unspecified; that it is then the
same whatever `RES` and the inputs were is the model's choice (log entry 2). -/
def Obligations.UnreadInputsHaveNoEffect : Prop :=
  ∀ (i : Instr) (s t : State) (q : Ports) (r : Word) (v : Bool), Instr.SameInputs s s.ports q i →
    exec i s = .next t →
    exec i { s with ports := q, RES := r, RVALID := v } = .next { t with ports := q }

/-- R26: no result depends on `LC` but that of `layout_read CBITS`: with another container in `LC` every other command
comes to the same next state, `LC` apart. Where the command faults, that the unspecified `RES` is the same too is the
model's choice (log entry 2). -/
def Obligations.ContainerDoesNotAffectResults : Prop :=
  ∀ (i : Instr) (s t : State) (c : BitVec 7), Instr.isComputeLayout i = false → i ≠ .layoutRead .cbits 0 →
    i.wellFormed = true → exec i s = .next t →
    exec i { s with lay := { s.lay with LC := c } } = .next { t with lay := { t.lay with LC := c } }

/-- R53: presenting a command that does not fault twice leaves the same state as presenting it once. For `computeLayout`
the registers R83 leaves unspecified (entries at `LN` or above) are left out of the comparison. -/
def Obligations.RepeatedCommandChangesNothing : Prop :=
  (∀ (i : Instr) (s t : State), Instr.isComputeLayout i = false → s.FAULT = false → exec i s = .next t →
    t.FAULT = false → exec i t = .next t) ∧
  (∀ (n : BitVec 7) (cw : ContainerChoice) (s t : State), s.FAULT = false →
    exec (.computeLayout n cw) s = .next t → t.FAULT = false →
    ∃ L k, exec (.computeLayout n cw) t = .next { t with lay := L, freeCount := k } ∧
      L.LN = t.lay.LN ∧ L.LC = t.lay.LC ∧ L.LSUM = t.lay.LSUM ∧ L.LLO = t.lay.LLO ∧ L.LHI = t.lay.LHI ∧
      L.LVM = t.lay.LVM ∧
      ∀ i < t.lay.n, L.width i = t.lay.width i ∧ L.offset i = t.lay.offset i ∧ L.fieldMask i = t.lay.fieldMask i)

/-- R190, R192, R198: under a layout a command whose own checks pass completes without a fault, for all data: nothing a
command computes can raise one. -/
def Obligations.AcceptedCommandsDoNotFault : Prop :=
  ∀ (i : Instr) (s t : State), s.FAULT = false → s.LVALID = true → Instr.Accepted s i → exec i s = .next t →
    t.FAULT = false ∧ t.ERR = s.ERR ∧ t.RVALID = true
end

