-- ==== Sys2Proof/Laws/Fields.lean ====
section
/-! SUPPORT. Fields of a compiled layout: where they lie (R28), how `fld`, `conf`, `join` and `bcast` (R8) read and
build them, and that a conformant word is its fields. -/

namespace Sys2Proof.Machine

variable {L : Layout}

/-! ### Places -/

theorem Layout.widthSum_zero (L : Layout) : L.widthSum 0 = 0 := rfl

theorem Layout.widthSum_succ (L : Layout) (i : Nat) : L.widthSum (i + 1) = L.widthSum i + L.width i := by
  simp [Layout.widthSum, List.range_succ]

theorem Layout.widthSum_mono (L : Layout) {i j : Nat} (h : i ≤ j) : L.widthSum i ≤ L.widthSum j := by
  induction j, h using Nat.le_induction with
  | base => exact Nat.le_refl _
  | succ j _ ih => rw [L.widthSum_succ]; omega

namespace Layout.WF

variable (wf : L.WF) {i j k b : Nat}
include wf

theorem lc_le : L.LC.toNat ≤ 64 := by
  have := wf.lc_mem
  simp [Config.containers] at this
  omega

theorem lsum_le : L.LSUM.toNat ≤ 64 := Nat.le_trans wf.lsum_le_lc wf.lc_le

theorem widthSum_le : L.widthSum L.n ≤ 64 := wf.lsum ▸ wf.lsum_le

/-- Where the next field begins. -/
theorem widthSum_succ_eq (hi : i < L.n) : L.widthSum (i + 1) = L.offset i + L.width i := by
  rw [L.widthSum_succ, wf.offset_eq i hi]

/-- A field ends at or below the total width. -/
theorem end_le (hi : i < L.n) : L.offset i + L.width i ≤ L.LSUM.toNat := by
  rw [← wf.widthSum_succ_eq hi, wf.lsum]
  exact L.widthSum_mono hi

theorem end_le_64 (hi : i < L.n) : L.offset i + L.width i ≤ 64 := Nat.le_trans (wf.end_le hi) wf.lsum_le

/-- Fields follow one another without overlap. -/
theorem end_le_offset (hij : i < j) (hj : j < L.n) : L.offset i + L.width i ≤ L.offset j := by
  rw [← wf.widthSum_succ_eq (Nat.lt_trans hij hj), wf.offset_eq j hj]
  exact L.widthSum_mono hij

/-- A bit belongs to one field only. -/
theorem field_unique (hi : i < L.n) (hj : j < L.n) (h1 : L.offset i ≤ b) (h2 : b < L.offset i + L.width i)
    (h3 : L.offset j ≤ b) (h4 : b < L.offset j + L.width j) : i = j := by
  rcases Nat.lt_trichotomy i j with h | h | h
  · have := wf.end_le_offset h hj; omega
  · exact h
  · have := wf.end_le_offset h hi; omega

/-- Every bit below the total width belongs to a field. -/
theorem exists_field (hb : b < L.LSUM.toNat) : ∃ i < L.n, ∃ k < L.width i, b = L.offset i + k := by
  rw [wf.lsum] at hb
  have key : ∀ m ≤ L.n, b < L.widthSum m → ∃ i < L.n, ∃ k < L.width i, b = L.offset i + k := by
    intro m
    induction m with
    | zero => intro _ h; simp [Layout.widthSum_zero] at h
    | succ m ih =>
      intro hm h
      by_cases hlt : b < L.widthSum m
      · exact ih (by omega) hlt
      · have hw := wf.widthSum_succ_eq (show m < L.n by omega)
        have ho := wf.offset_eq m (by omega)
        exact ⟨m, by omega, b - L.offset m, by omega, by omega⟩
  exact key L.n (Nat.le_refl _) hb

theorem top_eq (hi : i < L.n) : L.top i = L.offset i + (L.width i - 1) := by
  have := wf.width_pos i hi
  simp only [Layout.top]; omega

end Layout.WF

/-! ### Reading a field -/

theorem Layout.fld_eq (L : Layout) (p : Word) (i : Nat) :
    L.fld p i = p.toNat / 2 ^ L.offset i % 2 ^ L.width i := by
  simp [Layout.fld, ones, Nat.shiftRight_eq_div_pow, Nat.and_two_pow_sub_one_eq_mod]

theorem Layout.fld_lt (L : Layout) (p : Word) (i : Nat) : L.fld p i < 2 ^ L.width i := by
  rw [L.fld_eq]; exact Nat.mod_lt _ (Nat.two_pow_pos _)

/-- Bit `k` of field `i` is bit `LOFF[i] + k` of the word. -/
theorem Layout.testBit_fld (L : Layout) (p : Word) (i k : Nat) :
    (L.fld p i).testBit k = (decide (k < L.width i) && p.getLsbD (L.offset i + k)) := by
  simp [L.fld_eq, Nat.testBit_mod_two_pow, Nat.testBit_div_two_pow, BitVec.testBit_toNat, Nat.add_comm]

theorem Layout.WF.getLsbD_LVM (wf : L.WF) (b : Nat) : L.LVM.getLsbD b = decide (b < L.LSUM.toNat) := by
  rw [← BitVec.testBit_toNat, wf.lvm_eq, ones, Nat.testBit_two_pow_sub_one]

theorem Layout.WF.getLsbD_conf (wf : L.WF) (p : Word) (b : Nat) :
    (L.conf p).getLsbD b = (p.getLsbD b && decide (b < L.LSUM.toNat)) := by
  rw [Layout.conf, BitVec.getLsbD_and, wf.getLsbD_LVM]

/-- Bits outside the fields do not reach a field (R104). -/
theorem Layout.WF.fld_conf (wf : L.WF) (p : Word) {i : Nat} (hi : i < L.n) : L.fld (L.conf p) i = L.fld p i := by
  apply Nat.eq_of_testBit_eq
  intro k
  have := wf.end_le hi
  rw [L.testBit_fld, L.testBit_fld, wf.getLsbD_conf]
  by_cases hk : k < L.width i
  · simp [hk, show L.offset i + k < L.LSUM.toNat by omega]
  · simp [hk]

theorem Layout.WF.sfld_conf (wf : L.WF) (p : Word) {i : Nat} (hi : i < L.n) : L.sfld (L.conf p) i = L.sfld p i := by
  rw [Layout.sfld, wf.fld_conf p hi, Layout.sfld]

theorem Layout.WF.conf_conf (_ : L.WF) (p : Word) : L.conf (L.conf p) = L.conf p := by
  simp [Layout.conf, BitVec.and_assoc]

/-- A word's conformant part is its fields. -/
theorem Layout.WF.conf_ext (wf : L.WF) {p q : Word} (h : ∀ i < L.n, L.fld p i = L.fld q i) : L.conf p = L.conf q := by
  apply BitVec.eq_of_getLsbD_eq
  intro b _
  rw [wf.getLsbD_conf, wf.getLsbD_conf]
  by_cases hb : b < L.LSUM.toNat
  · obtain ⟨i, hi, k, hk, rfl⟩ := wf.exists_field hb
    have := congrArg (fun v => v.testBit k) (h i hi)
    simpa [L.testBit_fld, hk, hb] using this
  · simp [hb]

/-- Two conformant words with the same fields are the same word. -/
theorem Layout.WF.ext (wf : L.WF) {p q : Word} (hp : L.conf p = p) (hq : L.conf q = q)
    (h : ∀ i < L.n, L.fld p i = L.fld q i) : p = q := by
  rw [← hp, ← hq]; exact wf.conf_ext h

/-- A word with no bit at or above the total width is conformant. -/
theorem Layout.WF.conf_eq_of_lt (wf : L.WF) {p : Word} (h : p.toNat < 2 ^ L.LSUM.toNat) : L.conf p = p := by
  apply BitVec.eq_of_getLsbD_eq
  intro b _
  rw [wf.getLsbD_conf]
  by_cases hb : b < L.LSUM.toNat
  · simp [hb]
  · have : p.getLsbD b = false := by
      rw [← BitVec.testBit_toNat]
      exact Nat.testBit_lt_two_pow (Nat.lt_of_lt_of_le h (Nat.pow_le_pow_right (by omega) (by omega)))
    simp [hb, this]

/-! ### Building a word from its fields -/

/-- The terms of `join` below field `m`. -/
def Layout.joinBelow (L : Layout) (f : Nat → Int) (m : Nat) : Nat :=
  ((List.range m).map fun i => L.place i (f i)).sum

theorem Layout.joinBelow_succ (L : Layout) (f : Nat → Int) (m : Nat) :
    L.joinBelow f (m + 1) = L.joinBelow f m + L.place m (f m) := by
  simp [Layout.joinBelow, List.range_succ]

/-- The pattern of a value in a field of width `w`. -/
def pattern (v : Int) (w : Nat) : Nat := (v % ((2 ^ w : Nat) : Int)).toNat

theorem pattern_lt (v : Int) (w : Nat) : pattern v w < 2 ^ w := by
  have hpos : (0 : Int) < ((2 ^ w : Nat) : Int) := by exact_mod_cast Nat.two_pow_pos w
  have h1 := Int.emod_nonneg v (ne_of_gt hpos)
  have h2 := Int.emod_lt_of_pos v hpos
  unfold pattern
  omega

theorem pattern_cast (v : Int) (w : Nat) : (pattern v w : Int) = v % ((2 ^ w : Nat) : Int) := by
  have hpos : (0 : Int) < ((2 ^ w : Nat) : Int) := by exact_mod_cast Nat.two_pow_pos w
  exact Int.toNat_of_nonneg (Int.emod_nonneg v (ne_of_gt hpos))

theorem pattern_of_lt {v w : Nat} (h : v < 2 ^ w) : pattern (v : Int) w = v := by
  have h1 : (v : Int) % ((2 ^ w : Nat) : Int) = ((v % 2 ^ w : Nat) : Int) := by push_cast; rfl
  rw [pattern, h1, Int.toNat_natCast, Nat.mod_eq_of_lt h]

theorem pattern_natCast (v w : Nat) : pattern (v : Int) w = v % 2 ^ w := by
  have h1 : (v : Int) % ((2 ^ w : Nat) : Int) = ((v % 2 ^ w : Nat) : Int) := by push_cast; rfl
  rw [pattern, h1, Int.toNat_natCast]

theorem Layout.place_eq (L : Layout) (i : Nat) (v : Int) : L.place i v = pattern v (L.width i) * 2 ^ L.offset i := by
  rw [Layout.place, Nat.shiftLeft_eq]; rfl

theorem Layout.WF.joinBelow_lt (wf : L.WF) (f : Nat → Int) : ∀ m ≤ L.n, L.joinBelow f m < 2 ^ L.widthSum m := by
  intro m
  induction m with
  | zero => intro _; simp [Layout.joinBelow, Layout.widthSum_zero]
  | succ m ih =>
    intro hm
    have h1 := ih (by omega)
    have ho := wf.offset_eq m (by omega)
    have hp := pattern_lt (f m) (L.width m)
    rw [L.joinBelow_succ, L.place_eq, L.widthSum_succ, ho, Nat.pow_add, Nat.mul_comm (2 ^ L.widthSum m)]
    calc L.joinBelow f m + pattern (f m) (L.width m) * 2 ^ L.widthSum m
        < 2 ^ L.widthSum m + pattern (f m) (L.width m) * 2 ^ L.widthSum m := by omega
      _ = (pattern (f m) (L.width m) + 1) * 2 ^ L.widthSum m := by ring
      _ ≤ 2 ^ L.width m * 2 ^ L.widthSum m := Nat.mul_le_mul_right _ hp

/-- A field of the terms joined so far. -/
theorem Layout.WF.joinBelow_field (wf : L.WF) (f : Nat → Int) :
    ∀ m ≤ L.n, ∀ i < m, L.joinBelow f m / 2 ^ L.offset i % 2 ^ L.width i = pattern (f i) (L.width i) := by
  intro m
  induction m with
  | zero => intro _ i hi; omega
  | succ m ih =>
    intro hm i hi
    have hlt := wf.joinBelow_lt f m (by omega)
    have ho := wf.offset_eq m (by omega)
    rw [L.joinBelow_succ, L.place_eq]
    by_cases him : i = m
    · subst him
      rw [ho, Nat.add_mul_div_right _ _ (Nat.two_pow_pos _), Nat.div_eq_of_lt hlt, Nat.zero_add,
        Nat.mod_eq_of_lt (pattern_lt _ _)]
    · have hi' : i < m := by omega
      have hend := wf.end_le_offset hi' (show m < L.n by omega)
      obtain ⟨d, hd⟩ := Nat.exists_eq_add_of_le hend
      have hsplit : pattern (f m) (L.width m) * 2 ^ L.offset m =
          (pattern (f m) (L.width m) * 2 ^ d * 2 ^ L.width i) * 2 ^ L.offset i := by
        rw [hd, Nat.pow_add, Nat.pow_add]; ring
      rw [hsplit, Nat.add_mul_div_right _ _ (Nat.two_pow_pos _), Nat.add_mul_mod_self_right]
      exact ih (by omega) i hi'

theorem Layout.WF.join_toNat (wf : L.WF) (f : Nat → Int) : (L.join f).toNat = L.joinBelow f L.n := by
  have h := wf.joinBelow_lt f L.n (Nat.le_refl _)
  have h64 : 2 ^ L.widthSum L.n ≤ 2 ^ 64 := Nat.pow_le_pow_right (by omega) wf.widthSum_le
  show (BitVec.ofNat 64 (L.joinBelow f L.n)).toNat = _
  rw [BitVec.toNat_ofNat, Nat.mod_eq_of_lt (Nat.lt_of_lt_of_le h h64)]

/-- Field `i` of `join f` is `f i` modulo `2^LW[i]` (R8). -/
theorem Layout.WF.fld_join (wf : L.WF) (f : Nat → Int) {i : Nat} (hi : i < L.n) :
    L.fld (L.join f) i = pattern (f i) (L.width i) := by
  rw [L.fld_eq, wf.join_toNat, wf.joinBelow_field f L.n (Nat.le_refl _) i hi]

theorem Layout.WF.conf_join (wf : L.WF) (f : Nat → Int) : L.conf (L.join f) = L.join f := by
  apply wf.conf_eq_of_lt
  rw [wf.join_toNat, wf.lsum]
  exact wf.joinBelow_lt f L.n (Nat.le_refl _)

/-- What `join` builds, said once. -/
theorem Layout.WF.join_holds (wf : L.WF) (f : Nat → Int) :
    L.Holds (L.join f) fun i => pattern (f i) (L.width i) :=
  ⟨wf.conf_join f, fun _ hi => wf.fld_join f hi⟩

/-! ### Signed readings -/

/-- The signed reading of a pattern lies in the signed range (R139). -/
theorem sgn_bounds {v w : Nat} (hw : 1 ≤ w) (hv : v < 2 ^ w) :
    -((2 ^ (w - 1) : Nat) : Int) ≤ sgn v w ∧ sgn v w ≤ ((2 ^ (w - 1) : Nat) : Int) - 1 := by
  have h2 : 2 ^ w = 2 * 2 ^ (w - 1) := by rw [← Nat.pow_succ', Nat.succ_eq_add_one, Nat.sub_add_cancel hw]
  unfold sgn
  split <;> omega

/-- The pattern of an integer in the signed range reads back as that integer. -/
theorem sgn_pattern {v : Int} {w : Nat} (hw : 1 ≤ w) (h1 : -((2 ^ (w - 1) : Nat) : Int) ≤ v)
    (h2 : v ≤ ((2 ^ (w - 1) : Nat) : Int) - 1) : sgn (pattern v w) w = v := by
  have hw2 : 2 ^ w = 2 * 2 ^ (w - 1) := by rw [← Nat.pow_succ', Nat.succ_eq_add_one, Nat.sub_add_cancel hw]
  have hc := pattern_cast v w
  by_cases hv : 0 ≤ v
  · rw [Int.emod_eq_of_lt hv (by omega)] at hc
    unfold sgn
    split <;> omega
  · have hm : v % ((2 ^ w : Nat) : Int) = v + ((2 ^ w : Nat) : Int) := by
      rw [← Int.add_emod_right, Int.emod_eq_of_lt (by omega) (by omega)]
    rw [hm] at hc
    unfold sgn
    split <;> omega

theorem Layout.WF.sfld_join (wf : L.WF) (f : Nat → Int) {i : Nat} (hi : i < L.n)
    (h1 : -((2 ^ (L.width i - 1) : Nat) : Int) ≤ f i) (h2 : f i ≤ ((2 ^ (L.width i - 1) : Nat) : Int) - 1) :
    L.sfld (L.join f) i = f i := by
  rw [Layout.sfld, wf.fld_join f hi, sgn_pattern (wf.width_pos i hi) h1 h2]

/-- A field's top bit is its sign (R8, R139). -/
theorem Layout.WF.getLsbD_top (wf : L.WF) (p : Word) {i : Nat} (hi : i < L.n) :
    p.getLsbD (L.top i) = decide (2 ^ (L.width i - 1) ≤ L.fld p i) := by
  have hw := wf.width_pos i hi
  have hlt := L.fld_lt p i
  have hb : (L.fld p i).testBit (L.width i - 1) = p.getLsbD (L.top i) := by
    rw [L.testBit_fld, wf.top_eq hi]
    simp [show L.width i - 1 < L.width i by omega]
  rw [← hb]
  have h2 : 2 ^ L.width i = 2 * 2 ^ (L.width i - 1) := by
    rw [← Nat.pow_succ', Nat.succ_eq_add_one, Nat.sub_add_cancel hw]
  by_cases h : 2 ^ (L.width i - 1) ≤ L.fld p i
  · rw [decide_eq_true h]
    have hd : L.fld p i / 2 ^ (L.width i - 1) = 1 := by
      rw [Nat.div_eq_iff (Nat.two_pow_pos _)]; omega
    simp [Nat.testBit_eq_decide_div_mod_eq, hd]
  · rw [decide_eq_false h, Nat.testBit_lt_two_pow (by omega)]

/-! ### Words with one bit per field, and broadcast -/

/-- The bits of an OR over a list. -/
theorem getLsbD_foldl_or (l : List Nat) (c : Nat → Bool) (g : Nat → Word) (m : Word) (b : Nat) :
    (l.foldl (fun m i => if c i then m ||| g i else m) m).getLsbD b =
      (m.getLsbD b || l.any fun i => c i && (g i).getLsbD b) := by
  induction l generalizing m with
  | nil => simp
  | cons i l ih =>
    rw [List.foldl_cons, ih, List.any_cons]
    cases c i <;> simp [Bool.or_assoc]

theorem getLsbD_foldl_or_zero (l : List Nat) (c : Nat → Bool) (g : Nat → Word) (b : Nat) :
    (l.foldl (fun m i => if c i then m ||| g i else m) 0).getLsbD b = l.any fun i => c i && (g i).getLsbD b := by
  rw [getLsbD_foldl_or]
  simp

theorem Layout.WF.getLsbD_fieldMask (wf : L.WF) {i : Nat} (hi : i < L.n) (b : Nat) :
    (L.fieldMask i).getLsbD b = decide (L.offset i ≤ b ∧ b < L.offset i + L.width i) := by
  have h64 := wf.end_le_64 hi
  rw [wf.mask_eq i hi, BitVec.getLsbD_ofNat, ones]
  by_cases h : L.offset i ≤ b
  · by_cases h' : b - L.offset i < L.width i
    · simp [Nat.testBit_shiftLeft, Nat.testBit_two_pow_sub_one, h, h', show b < 64 by omega,
        show b < L.offset i + L.width i by omega]
    · simp [Nat.testBit_shiftLeft, Nat.testBit_two_pow_sub_one, h, h', show ¬ b < L.offset i + L.width i by omega]
  · simp [Nat.testBit_shiftLeft, h]

/-- A broadcast word has, over each field, that field's top bit (R8, R131). -/
theorem Layout.WF.getLsbD_bcast (wf : L.WF) (x : Word) {i k : Nat} (hi : i < L.n) (hk : k < L.width i) :
    (L.bcast x).getLsbD (L.offset i + k) = x.getLsbD (L.top i) := by
  rw [Layout.bcast, getLsbD_foldl_or_zero]
  cases hx : x.getLsbD (L.top i) with
  | true =>
    simp only [List.any_eq_true, List.mem_range, Bool.and_eq_true]
    exact ⟨i, hi, hx, by rw [wf.getLsbD_fieldMask hi]; simp [hk]⟩
  | false =>
    simp only [List.any_eq_false, List.mem_range, Bool.and_eq_true]
    rintro j hj ⟨h1, h2⟩
    rw [wf.getLsbD_fieldMask hj] at h2
    simp only [decide_eq_true_eq] at h2
    have := wf.field_unique hi hj (b := L.offset i + k) (by omega) (by omega) h2.1 h2.2
    subst this
    simp [hx] at h1

/-- A broadcast word is conformant. -/
theorem Layout.WF.conf_bcast (wf : L.WF) (x : Word) : L.conf (L.bcast x) = L.bcast x := by
  apply BitVec.eq_of_getLsbD_eq
  intro b _
  rw [wf.getLsbD_conf]
  by_cases hb : b < L.LSUM.toNat
  · simp [hb]
  · have : (L.bcast x).getLsbD b = false := by
      rw [Layout.bcast, getLsbD_foldl_or_zero]
      simp only [List.any_eq_false, List.mem_range, Bool.and_eq_true]
      rintro j hj ⟨_, h2⟩
      rw [wf.getLsbD_fieldMask hj] at h2
      simp only [decide_eq_true_eq] at h2
      have := wf.end_le hj
      omega
    simp [hb, this]

/-- `LHI` is the word whose field `i` is its top bit alone (R32). -/
theorem Layout.WF.LHI_eq_join (wf : L.WF) : L.LHI = L.join fun i => ((2 ^ (L.width i - 1) : Nat) : Int) := by
  apply BitVec.eq_of_toNat_eq
  rw [wf.join_toNat, wf.lhi_eq, Layout.joinBelow]
  congr 1
  apply List.map_congr_left
  intro i hi
  have hi' : i < L.n := List.mem_range.mp hi
  have hw := wf.width_pos i hi'
  rw [L.place_eq, pattern_of_lt (Nat.pow_lt_pow_right (by omega) (by omega)), wf.top_eq hi', ← Nat.pow_add,
    Nat.add_comm]

/-- `LLO` is the word whose every field is 1 (R31). -/
theorem Layout.WF.LLO_eq_join (wf : L.WF) : L.LLO = L.join fun _ => ((1 : Nat) : Int) := by
  apply BitVec.eq_of_toNat_eq
  rw [wf.join_toNat, wf.llo_eq, Layout.joinBelow]
  congr 1
  apply List.map_congr_left
  intro i hi
  have hw := wf.width_pos i (List.mem_range.mp hi)
  have h1 : 1 < 2 ^ L.width i := Nat.one_lt_two_pow (by omega)
  rw [L.place_eq, pattern_of_lt h1, Nat.one_mul]

theorem Layout.WF.fld_LHI (wf : L.WF) {i : Nat} (hi : i < L.n) : L.fld L.LHI i = 2 ^ (L.width i - 1) := by
  have hw := wf.width_pos i hi
  rw [wf.LHI_eq_join, wf.fld_join _ hi, pattern_of_lt (Nat.pow_lt_pow_right (by omega) (by omega))]

theorem Layout.WF.fld_LLO (wf : L.WF) {i : Nat} (hi : i < L.n) : L.fld L.LLO i = 1 := by
  have hw := wf.width_pos i hi
  rw [wf.LLO_eq_join, wf.fld_join _ hi, pattern_of_lt (Nat.one_lt_two_pow (by omega))]

theorem Layout.WF.conf_LHI (wf : L.WF) : L.conf L.LHI = L.LHI := by rw [wf.LHI_eq_join]; exact wf.conf_join _

theorem Layout.WF.conf_LLO (wf : L.WF) : L.conf L.LLO = L.LLO := by rw [wf.LLO_eq_join]; exact wf.conf_join _

/-- `LHI` has one bit per field, at its top (R32). -/
theorem Layout.WF.getLsbD_LHI (wf : L.WF) {i k : Nat} (hi : i < L.n) (hk : k < L.width i) :
    L.LHI.getLsbD (L.offset i + k) = decide (k = L.width i - 1) := by
  have h := L.testBit_fld L.LHI i k
  rw [wf.fld_LHI hi, Nat.testBit_two_pow] at h
  simp only [hk, decide_true, Bool.true_and] at h
  rw [← h]
  exact decide_eq_decide.mpr eq_comm

end Sys2Proof.Machine
end

