-- ==== Sys2Proof/Laws/Bitwise.lean ====
section
/-! SUPPORT. Whole-word operations field by field: AND, OR, XOR and complement always; addition and subtraction where no
field carries or borrows. The closed forms of 42 to 46 rest on these. -/

namespace Sys2Proof.Machine

variable {L : Layout}

theorem Layout.fld_and (L : Layout) (p q : Word) (i : Nat) : L.fld (p &&& q) i = L.fld p i &&& L.fld q i := by
  apply Nat.eq_of_testBit_eq
  intro k
  simp only [Nat.testBit_and, L.testBit_fld, BitVec.getLsbD_and]
  cases decide (k < L.width i) <;> simp

theorem Layout.fld_or (L : Layout) (p q : Word) (i : Nat) : L.fld (p ||| q) i = L.fld p i ||| L.fld q i := by
  apply Nat.eq_of_testBit_eq
  intro k
  simp only [Nat.testBit_or, L.testBit_fld, BitVec.getLsbD_or]
  cases decide (k < L.width i) <;> simp

theorem Layout.fld_xor (L : Layout) (p q : Word) (i : Nat) : L.fld (p ^^^ q) i = L.fld p i ^^^ L.fld q i := by
  apply Nat.eq_of_testBit_eq
  intro k
  simp only [Nat.testBit_xor, L.testBit_fld, BitVec.getLsbD_xor]
  cases decide (k < L.width i) <;> simp

/-- Each field of a complement is the field's complement within its width. -/
theorem Layout.WF.fld_not (wf : L.WF) (p : Word) {i : Nat} (hi : i < L.n) :
    L.fld (~~~p) i = 2 ^ L.width i - 1 - L.fld p i := by
  have h64 := wf.end_le_64 hi
  apply Nat.eq_of_testBit_eq
  intro k
  have hsub : 2 ^ L.width i - 1 - L.fld p i = 2 ^ L.width i - (L.fld p i + 1) := by omega
  rw [L.testBit_fld, hsub, Nat.testBit_two_pow_sub_succ (L.fld_lt p i), L.testBit_fld]
  by_cases hk : k < L.width i
  · simp [hk, show L.offset i + k < 64 by omega]
  · simp [hk]

theorem Layout.conf_and (L : Layout) (p q : Word) : L.conf (p &&& q) = L.conf p &&& L.conf q := by
  apply BitVec.eq_of_getLsbD_eq
  intro b _
  simp only [Layout.conf, BitVec.getLsbD_and]
  cases p.getLsbD b <;> cases q.getLsbD b <;> cases L.LVM.getLsbD b <;> rfl

theorem Layout.conf_or (L : Layout) (p q : Word) : L.conf (p ||| q) = L.conf p ||| L.conf q := by
  apply BitVec.eq_of_getLsbD_eq
  intro b _
  simp only [Layout.conf, BitVec.getLsbD_and, BitVec.getLsbD_or]
  cases p.getLsbD b <;> cases q.getLsbD b <;> cases L.LVM.getLsbD b <;> rfl

theorem Layout.conf_xor (L : Layout) (p q : Word) : L.conf (p ^^^ q) = L.conf p ^^^ L.conf q := by
  apply BitVec.eq_of_getLsbD_eq
  intro b _
  simp only [Layout.conf, BitVec.getLsbD_and, BitVec.getLsbD_xor]
  cases p.getLsbD b <;> cases q.getLsbD b <;> cases L.LVM.getLsbD b <;> rfl

/-- Each field of `LVM` is all ones (R29). -/
theorem Layout.WF.fld_LVM (wf : L.WF) {i : Nat} (hi : i < L.n) : L.fld L.LVM i = 2 ^ L.width i - 1 := by
  apply Nat.eq_of_testBit_eq
  intro k
  have := wf.end_le hi
  rw [L.testBit_fld, wf.getLsbD_LVM, Nat.testBit_two_pow_sub_one]
  by_cases hk : k < L.width i
  · simp [hk, show L.offset i + k < L.LSUM.toNat by omega]
  · simp [hk]

/-- A conformant word is the join of its fields. -/
theorem Layout.WF.join_fld (wf : L.WF) {p : Word} (hp : L.conf p = p) : (L.join fun i => (L.fld p i : Int)) = p := by
  refine wf.ext (wf.conf_join _) hp fun i hi => ?_
  rw [wf.fld_join _ hi, pattern_of_lt (L.fld_lt p i)]

/-- Addition of conformant words in which no field carries out is addition field by field. -/
theorem Layout.WF.add_holds (wf : L.WF) {p q : Word} (hp : L.conf p = p) (hq : L.conf q = q)
    (h : ∀ i < L.n, L.fld p i + L.fld q i < 2 ^ L.width i) : L.Holds (p + q) fun i => L.fld p i + L.fld q i := by
  have hsum : ∀ m ≤ L.n, L.joinBelow (fun i => (L.fld p i : Int)) m + L.joinBelow (fun i => (L.fld q i : Int)) m =
      L.joinBelow (fun i => ((L.fld p i + L.fld q i : Nat) : Int)) m := by
    intro m
    induction m with
    | zero => intro _; rfl
    | succ m ih =>
      intro hm
      have hm' : m < L.n := hm
      rw [L.joinBelow_succ, L.joinBelow_succ, L.joinBelow_succ, ← ih (by omega), L.place_eq, L.place_eq, L.place_eq,
        pattern_of_lt (L.fld_lt p m), pattern_of_lt (L.fld_lt q m), pattern_of_lt (h m hm')]
      ring
  have hpq : p + q = L.join fun i => ((L.fld p i + L.fld q i : Nat) : Int) := by
    apply BitVec.eq_of_toNat_eq
    conv_lhs => rw [← wf.join_fld hp, ← wf.join_fld hq]
    rw [BitVec.toNat_add, wf.join_toNat, wf.join_toNat, hsum L.n (Nat.le_refl _), ← wf.join_toNat,
      Nat.mod_eq_of_lt (BitVec.isLt _)]
  rw [hpq]
  refine ⟨wf.conf_join _, fun i hi => ?_⟩
  rw [wf.fld_join _ hi, pattern_of_lt (h i hi)]

/-- Subtraction of conformant words in which no field borrows is subtraction field by field. -/
theorem Layout.WF.sub_holds (wf : L.WF) {p q : Word} (hp : L.conf p = p) (hq : L.conf q = q)
    (h : ∀ i < L.n, L.fld q i ≤ L.fld p i) : L.Holds (p - q) fun i => L.fld p i - L.fld q i := by
  let d := L.join fun i => ((L.fld p i - L.fld q i : Nat) : Int)
  have hd : ∀ i < L.n, L.fld d i = L.fld p i - L.fld q i := fun i hi => by
    rw [wf.fld_join _ hi, pattern_of_lt (Nat.lt_of_le_of_lt (Nat.sub_le _ _) (L.fld_lt p i))]
  have hadd : L.Holds (d + q) fun i => L.fld d i + L.fld q i := wf.add_holds (wf.conf_join _) hq fun i hi => by
    have := L.fld_lt p i
    have := h i hi
    rw [hd i hi]; omega
  have hpd : d + q = p := wf.ext hadd.1 hp fun i hi => by
    have := h i hi
    refine (hadd.2 i hi).trans ?_
    show L.fld d i + L.fld q i = L.fld p i
    rw [hd i hi]; omega
  have : p - q = d := by rw [← hpd, BitVec.add_sub_cancel]
  rw [this]
  exact ⟨wf.conf_join _, hd⟩

end Sys2Proof.Machine
end

