-- ==== Sys2Proof/Laws/Compiler.lean ====
section
/-! SUPPORT. What `deriveLayout` (R83) leaves in the layout registers: the widths, their prefix sums, and the masks over
them. The result meets `Layout.WF`. -/

namespace Sys2Proof.Machine

/-! ### The loop of R83 -/

theorem spans_length (off : Nat) (ws : List Nat) : (spans off ws).length = ws.length := by
  induction ws generalizing off with
  | nil => rfl
  | cons w ws ih => simp [spans, ih]

theorem spans_getElem? (off : Nat) (ws : List Nat) (i : Nat) :
    (spans off ws)[i]? = ws[i]?.map fun w => (w, off + (ws.take i).sum) := by
  induction ws generalizing off i with
  | nil => simp [spans]
  | cons w ws ih =>
    cases i with
    | zero => simp [spans]
    | succ i => simp [spans, ih, Nat.add_assoc]

/-- ORing in one contribution per field, each inside its field, is adding them (R83: "the terms are distinct powers of
two, so sum and bitwise OR are the same"). -/
theorem foldl_or_spans (c : Nat × Nat → Nat) (g : Nat × Nat → Nat) (ws : List Nat) :
    ∀ (off : Nat) (m : Word), off + ws.sum ≤ 64 → m.toNat < 2 ^ off →
      (∀ f ∈ spans off ws, g f = 2 ^ f.2 * c f ∧ c f < 2 ^ f.1) →
      ((spans off ws).foldl (fun m f => m ||| BitVec.ofNat 64 (g f)) m).toNat =
        m.toNat + ((spans off ws).map g).sum := by
  induction ws with
  | nil => intro off m _ _ _; simp [spans]
  | cons w ws ih =>
    intro off m hle hm hg
    simp only [List.sum_cons] at hle
    obtain ⟨hg1, hc⟩ : g (w, off) = 2 ^ off * c (w, off) ∧ c (w, off) < 2 ^ w := hg (w, off) (by simp [spans])
    have hlt : 2 ^ off * c (w, off) + m.toNat < 2 ^ (off + w) := by
      rw [Nat.pow_add]
      calc 2 ^ off * c (w, off) + m.toNat < 2 ^ off * c (w, off) + 2 ^ off := by omega
        _ = 2 ^ off * (c (w, off) + 1) := by ring
        _ ≤ 2 ^ off * 2 ^ w := Nat.mul_le_mul_left _ hc
    have h64 : 2 ^ (off + w) ≤ 2 ^ 64 := Nat.pow_le_pow_right (by omega) (by omega)
    have hor : (m ||| BitVec.ofNat 64 (g (w, off))).toNat = m.toNat + g (w, off) := by
      rw [BitVec.toNat_or, BitVec.toNat_ofNat, hg1, Nat.mod_eq_of_lt (by omega), Nat.or_comm,
        ← Nat.two_pow_add_eq_or_of_lt hm, Nat.add_comm]
    simp only [spans, List.foldl_cons, List.map_cons, List.sum_cons]
    rw [ih (off + w) _ (by omega) (by rw [hor, hg1]; omega) (fun f hf => hg f (by simp [spans, hf])), hor]
    omega

/-! ### The registers -/

section
variable {ws : List Nat} {k C : Nat}

theorem take_sum_le (ws : List Nat) (i : Nat) : (ws.take i).sum ≤ ws.sum := by
  conv_rhs => rw [← List.take_append_drop i ws, List.sum_append]
  omega

theorem take_succ_sum_le {i : Nat} (h : i < ws.length) : (ws.take i).sum + ws[i] ≤ ws.sum := by
  have := take_sum_le ws (i + 1)
  rw [List.take_succ_eq_append_getElem h, List.sum_append, List.sum_singleton] at this
  exact this

theorem getElem_le_sum {i : Nat} (h : i < ws.length) : ws[i] ≤ ws.sum := by
  have := take_succ_sum_le h; omega

theorem length_le_sum (ws : List Nat) (hpos : ∀ w ∈ ws, 1 ≤ w) : ws.length ≤ ws.sum := by
  induction ws with
  | nil => simp
  | cons w ws ih =>
    have h1 := hpos w (by simp)
    have h2 := ih (fun x hx => hpos x (by simp [hx]))
    simp only [List.length_cons, List.sum_cons]; omega

theorem deriveLayout_lsum (hsum : ws.sum ≤ 64) : (deriveLayout k ws C).LSUM.toNat = ws.sum := by
  simp [deriveLayout]; omega

variable (hsum : ws.sum ≤ 64) (hpos : ∀ w ∈ ws, 1 ≤ w)
include hsum hpos

theorem deriveLayout_n : (deriveLayout k ws C).n = ws.length := by
  have := length_le_sum ws hpos
  simp [deriveLayout, Layout.n]
  omega

theorem deriveLayout_width {i : Nat} (h : i < ws.length) : (deriveLayout k ws C).width i = ws[i] := by
  have h1 := length_le_sum ws hpos
  have h2 := getElem_le_sum h
  have h3 : (spans 0 ws)[i]? = some (ws[i], 0 + (ws.take i).sum) := by rw [spans_getElem?]; simp [h]
  simp [deriveLayout, Layout.width, h3, show i < 64 by omega]
  omega

theorem deriveLayout_offset {i : Nat} (h : i < ws.length) :
    (deriveLayout k ws C).offset i = (ws.take i).sum := by
  have h1 := length_le_sum ws hpos
  have h2 := take_succ_sum_le h
  have hw := hpos ws[i] (List.getElem_mem h)
  have h3 : (spans 0 ws)[i]? = some (ws[i], 0 + (ws.take i).sum) := by rw [spans_getElem?]; simp [h]
  simp [deriveLayout, Layout.offset, h3, show i < 64 by omega]
  omega

theorem deriveLayout_fieldMask {i : Nat} (h : i < ws.length) :
    (deriveLayout k ws C).fieldMask i = BitVec.ofNat 64 (ones ws[i] <<< (ws.take i).sum) := by
  have h1 := length_le_sum ws hpos
  have h3 : (spans 0 ws)[i]? = some (ws[i], 0 + (ws.take i).sum) := by rw [spans_getElem?]; simp [h]
  simp [deriveLayout, Layout.fieldMask, h3, show i < 64 by omega]

theorem deriveLayout_widthSum : ∀ i ≤ ws.length, (deriveLayout k ws C).widthSum i = (ws.take i).sum := by
  intro i
  induction i with
  | zero => intro _; simp [Layout.widthSum_zero]
  | succ i ih =>
    intro hi
    rw [Layout.widthSum_succ, ih (by omega), deriveLayout_width hsum hpos (by omega),
      List.take_succ_eq_append_getElem (by omega), List.sum_append, List.sum_singleton]

/-- The spans are the fields of the layout. -/
theorem spans_eq_fields : spans 0 ws =
    (List.range ws.length).map fun i => ((deriveLayout k ws C).width i, (deriveLayout k ws C).offset i) := by
  apply List.ext_getElem?
  intro i
  rw [spans_getElem?]
  by_cases h : i < ws.length
  · simp [h, deriveLayout_width hsum hpos h, deriveLayout_offset hsum hpos h]
  · simp [Nat.le_of_not_lt h]

/-- `computeLayout` compiles a layout (R83 to R84): every equation of R24 to R32 holds. -/
theorem deriveLayout_wf (hne : ws ≠ []) (hC : C ∈ Config.containers) (hfit : ws.sum ≤ C) :
    (deriveLayout k ws C).WF := by
  have hn := deriveLayout_n (k := k) (C := C) hsum hpos
  have hls := deriveLayout_lsum (k := k) (C := C) hsum
  have hsp := spans_eq_fields (k := k) (C := C) hsum hpos
  have hC' : C = 8 ∨ C = 16 ∨ C = 32 ∨ C = 64 := by simpa [Config.containers] using hC
  have hlc : (deriveLayout k ws C).LC.toNat = C := by simp [deriveLayout]; omega
  have hlen := length_le_sum ws hpos
  have hlen1 : 1 ≤ ws.length := List.length_pos_iff.mpr hne
  have hwpos : ∀ f ∈ spans 0 ws, 1 ≤ f.1 := by
    intro f hf
    obtain ⟨i, hi, rfl⟩ := List.mem_iff_getElem.mp hf
    have hi' : i < ws.length := by rwa [spans_length] at hi
    have h3 := spans_getElem? 0 ws i
    rw [List.getElem?_eq_getElem hi, List.getElem?_eq_getElem hi'] at h3
    simp only [Option.map_some, Option.some.injEq] at h3
    rw [h3]
    exact hpos _ (List.getElem_mem hi')
  have hsum' : ((deriveLayout k ws C).LLO).toNat = ((spans 0 ws).map fun f => 1 <<< f.2).sum ∧
      ((deriveLayout k ws C).LHI).toNat = ((spans 0 ws).map fun f => 1 <<< (f.2 + f.1 - 1)).sum ∧
      ((deriveLayout k ws C).LVM).toNat = ((spans 0 ws).map fun f => ones f.1 <<< f.2).sum := by
    refine ⟨?_, ?_, ?_⟩
    · have := foldl_or_spans (fun _ => 1) (fun f => 1 <<< f.2) ws 0 0 (by omega) (by simp) (by
        intro f hf
        refine ⟨by simp [Nat.shiftLeft_eq], Nat.one_lt_two_pow (by have := hwpos f hf; omega)⟩)
      simpa [deriveLayout] using this
    · have := foldl_or_spans (fun f => 2 ^ (f.1 - 1)) (fun f => 1 <<< (f.2 + f.1 - 1)) ws 0 0 (by omega) (by simp) (by
        intro f hf
        have h1 := hwpos f hf
        refine ⟨?_, Nat.pow_lt_pow_right (by omega) (by omega)⟩
        rw [Nat.shiftLeft_eq, Nat.one_mul, ← Nat.pow_add]
        congr 1; omega)
      simpa [deriveLayout] using this
    · have := foldl_or_spans (fun f => ones f.1) (fun f => ones f.1 <<< f.2) ws 0 0 (by omega) (by simp) (by
        intro f _
        refine ⟨by rw [Nat.shiftLeft_eq, Nat.mul_comm], ?_⟩
        have := Nat.two_pow_pos f.1
        unfold ones; omega)
      simpa [deriveLayout] using this
  obtain ⟨hllo, hlhi, hlvm⟩ := hsum'
  rw [hsp, List.map_map] at hllo hlhi
  refine
    { n_pos := by rw [hn]; exact hlen1
      n_le := by rw [hn]; omega
      width_pos := ?_
      lsum := by rw [hls, hn, deriveLayout_widthSum hsum hpos _ (Nat.le_refl _), List.take_length]
      lc_mem := by rw [hlc]; exact hC
      lsum_le_lc := by rw [hls, hlc]; exact hfit
      offset_eq := ?_
      mask_eq := ?_
      llo_eq := ?_
      lhi_eq := ?_
      lvm_eq := ?_ }
  · intro i hi
    rw [hn] at hi
    rw [deriveLayout_width hsum hpos hi]
    exact hpos _ (List.getElem_mem hi)
  · intro i hi
    rw [hn] at hi
    rw [deriveLayout_offset hsum hpos hi, deriveLayout_widthSum hsum hpos i (by omega)]
  · intro i hi
    rw [hn] at hi
    rw [deriveLayout_fieldMask hsum hpos hi, deriveLayout_width hsum hpos hi, deriveLayout_offset hsum hpos hi]
  · rw [hllo, hn]; simp [Function.comp_def, Nat.shiftLeft_eq]
  · rw [hlhi, hn]; simp [Function.comp_def, Nat.shiftLeft_eq, Layout.top]
  · rw [hlvm, hls]
    have key : ∀ (l : List Nat) (off : Nat), ((spans off l).map fun f => ones f.1 <<< f.2).sum =
        2 ^ off * (2 ^ l.sum - 1) := by
      intro l
      induction l with
      | nil => intro off; simp [spans]
      | cons w l ih =>
        intro off
        simp only [spans, List.map_cons, List.sum_cons, ih]
        simp only [ones, Nat.shiftLeft_eq]
        have h1 := Nat.one_le_two_pow (n := w)
        have h2 := Nat.one_le_two_pow (n := l.sum)
        rw [Nat.pow_add, Nat.pow_add, Nat.mul_assoc, Nat.mul_comm (2 ^ w - 1), ← Nat.mul_add]
        congr 1
        rw [Nat.mul_sub, Nat.mul_one]
        have h3 : 2 ^ w ≤ 2 ^ w * 2 ^ l.sum := Nat.le_mul_of_pos_right _ (by omega)
        omega
    simpa [ones] using key ws 0

end

/-! ### `computeLayout` -/

theorem Ports.widthList_length (p : Ports) (n : Nat) : (p.widthList n).length = n := by simp [Ports.widthList]

theorem Ports.widthList_getElem (p : Ports) (n i : Nat) (h : i < (p.widthList n).length) :
    (p.widthList n)[i] = (p.lane i).toNat := by simp [Ports.widthList]

theorem container_mem (S : Nat) (cw : ContainerChoice) : container S cw ∈ Config.containers := by
  cases cw <;> simp only [container, Config.containers] <;> (repeat' split) <;> simp

theorem container_le (S : Nat) (cw : ContainerChoice) : container S cw ≤ 64 := by
  have := container_mem S cw
  simp [Config.containers] at this
  omega

/-- The checks of R82 pass exactly when the command's own condition holds. -/
theorem checkWidths_none_iff (s : State) (n : BitVec 7) (cw : ContainerChoice) :
    checkWidths n.toNat (s.ports.widthList n.toNat) cw = none ↔ Instr.Accepted s (.computeLayout n cw) := by
  have hmem : 0 ∈ s.ports.widthList n.toNat ↔ ∃ i < n.toNat, (s.ports.lane i).toNat = 0 := by
    simp only [Ports.widthList, List.mem_map, List.mem_range]
  unfold checkWidths Instr.Accepted
  simp only [hmem]
  constructor
  · intro h
    split at h
    · simp at h
    split at h
    · simp at h
    split at h
    · simp at h
    split at h
    · simp at h
    rename_i h0 h1 h2 h3
    refine ⟨by omega, by omega, fun i hi => ?_, by omega⟩
    by_contra hz
    exact h2 ⟨i, hi, by omega⟩
  · rintro ⟨h0, h1, h2, h3⟩
    have h2' : ¬ ∃ i < n.toNat, (s.ports.lane i).toNat = 0 := by
      rintro ⟨i, hi, hz⟩
      have := h2 i hi
      omega
    rw [if_neg (by omega), if_neg (by omega), if_neg h2', if_neg (by omega)]

/-- What an accepted width list satisfies. -/
theorem accepted_widths {s : State} {n : BitVec 7} {cw : ContainerChoice}
    (h : Instr.Accepted s (.computeLayout n cw)) :
    s.ports.widthList n.toNat ≠ [] ∧ (∀ w ∈ s.ports.widthList n.toNat, 1 ≤ w) ∧
      (s.ports.widthList n.toNat).sum ≤ 64 := by
  obtain ⟨h0, _, h2, h3⟩ := h
  refine ⟨?_, ?_, Nat.le_trans h3 (container_le _ _)⟩
  · intro he
    have := Ports.widthList_length s.ports n.toNat
    rw [he] at this
    simp only [List.length_nil] at this
    omega
  · intro w hw
    obtain ⟨i, hi, rfl⟩ := by simpa [Ports.widthList] using hw
    exact h2 i hi

/-- The layout of an accepted `computeLayout` is well formed. -/
theorem accepted_layout_wf {s : State} {n : BitVec 7} {cw : ContainerChoice} (k : Nat)
    (h : Instr.Accepted s (.computeLayout n cw)) :
    (deriveLayout k (s.ports.widthList n.toNat) (container (s.ports.widthList n.toNat).sum cw)).WF := by
  obtain ⟨h1, h2, h3⟩ := accepted_widths h
  exact deriveLayout_wf h3 h2 h1 (container_mem _ _) h.2.2.2

end Sys2Proof.Machine
end

