-- ==== Sys2Proof/Laws/Encoding.lean ====
section
/-! SUPPORT. The fields of an assembled word (R61), and a word is its fields. -/

namespace Sys2Proof

variable (op : BitVec 8) (f1 f2 : BitVec 7) (cw : BitVec 3)

@[simp] theorem opField_assembleWord : opField (assembleWord op f1 f2 cw) = op := by
  apply BitVec.eq_of_getLsbD_eq
  intro i hi
  have h1 : i < 8 := hi
  have h2 : i < 15 := by omega
  have h3 : i < 22 := by omega
  simp [opField, assembleWord, h1, h2, h3, show i < 32 by omega]

@[simp] theorem f1Field_assembleWord : f1Field (assembleWord op f1 f2 cw) = f1 := by
  apply BitVec.eq_of_getLsbD_eq
  intro i hi
  simp [f1Field, assembleWord, hi, show 8 + i < 15 by omega, show 8 + i < 22 by omega, show 8 + i < 32 by omega]

@[simp] theorem f2Field_assembleWord : f2Field (assembleWord op f1 f2 cw) = f2 := by
  apply BitVec.eq_of_getLsbD_eq
  intro i hi
  have h0 : op.getLsbD (15 + i) = false := BitVec.getLsbD_of_ge _ _ (by omega)
  have h1 : f1.getLsbD (15 + i - 8) = false := BitVec.getLsbD_of_ge _ _ (by omega)
  simp [f2Field, assembleWord, hi, h0, h1, show 15 + i < 22 by omega, show 15 + i < 32 by omega]

@[simp] theorem cwField_assembleWord : cwField (assembleWord op f1 f2 cw) = cw := by
  apply BitVec.eq_of_getLsbD_eq
  intro i hi
  have h0 : op.getLsbD (22 + i) = false := BitVec.getLsbD_of_ge _ _ (by omega)
  have h1 : f1.getLsbD (22 + i - 8) = false := BitVec.getLsbD_of_ge _ _ (by omega)
  have h2 : f2.getLsbD (22 + i - 15) = false := BitVec.getLsbD_of_ge _ _ (by omega)
  simp [cwField, assembleWord, hi, h0, h1, h2, show 22 + i < 32 by omega]

@[simp] theorem zeroField_assembleWord : zeroField (assembleWord op f1 f2 cw) = 0 := by
  apply BitVec.eq_of_getLsbD_eq
  intro i hi
  have h0 : op.getLsbD (25 + i) = false := BitVec.getLsbD_of_ge _ _ (by omega)
  have h1 : f1.getLsbD (25 + i - 8) = false := BitVec.getLsbD_of_ge _ _ (by omega)
  have h2 : f2.getLsbD (25 + i - 15) = false := BitVec.getLsbD_of_ge _ _ (by omega)
  have h3 : cw.getLsbD (25 + i - 22) = false := BitVec.getLsbD_of_ge _ _ (by omega)
  simp [zeroField, assembleWord, hi, h0, h1, h2, h3]

/-- A word whose reserved bits are zero is assembled from its fields. -/
theorem assembleWord_fields (w : CmdWord) (h : zeroField w = 0) :
    assembleWord (opField w) (f1Field w) (f2Field w) (cwField w) = w := by
  apply BitVec.eq_of_getLsbD_eq
  intro i hi
  have hz : 25 ≤ i → w.getLsbD i = false := by
    intro h25
    have := congrArg (fun z : BitVec 7 => z.getLsbD (i - 25)) h
    simpa [zeroField, show i - 25 < 7 by omega, show 25 + (i - 25) = i by omega] using this
  simp only [assembleWord, opField, f1Field, f2Field, cwField, BitVec.getLsbD_or, BitVec.getLsbD_setWidth,
    BitVec.getLsbD_shiftLeft, BitVec.getLsbD_extractLsb']
  by_cases h8 : i < 8
  · simp [h8, hi, show i < 15 by omega, show i < 22 by omega]
  by_cases h15 : i < 15
  · simp [h8, h15, hi, show i < 22 by omega, show i - 8 < 7 by omega, show i - 8 < 32 by omega,
      show 8 + (i - 8) = i by omega]
  by_cases h22 : i < 22
  · simp [h8, h15, h22, hi, show i - 15 < 7 by omega, show ¬ i - 8 < 7 by omega, show i - 15 < 32 by omega,
      show 15 + (i - 15) = i by omega]
  by_cases h25 : i < 25
  · simp [h8, h15, h22, hi, show i - 22 < 3 by omega, show ¬ i - 8 < 7 by omega, show ¬ i - 15 < 7 by omega,
      show i - 22 < 32 by omega, show 22 + (i - 22) = i by omega]
  · simpa [h8, h15, h22, hi, show ¬ i - 22 < 3 by omega, show ¬ i - 8 < 7 by omega, show ¬ i - 15 < 7 by omega]
      using (hz (by omega)).symm

/-- The word of a command has zero reserved bits and the command's opcode. -/
theorem encode_fields (i : Instr) : zeroField (encode i) = 0 ∧ opField (encode i) = i.opcode := by
  cases i <;> simp [encode]

end Sys2Proof
end

