-- ==== Sys2Proof/Laws/State.lean ====
section
/-! SUPPORT. One lemma per field per update of State, each true by rfl. -/

namespace Sys2Proof.Machine

variable (s : State)

/-! ### `takeFault` -/

@[simp] theorem State.takeFault_LVALID (c : ErrCode) : (s.takeFault c).LVALID = s.LVALID := rfl
@[simp] theorem State.takeFault_lay (c : ErrCode) : (s.takeFault c).lay = s.lay := rfl
@[simp] theorem State.takeFault_FAULT (c : ErrCode) : (s.takeFault c).FAULT = true := rfl
@[simp] theorem State.takeFault_ERR (c : ErrCode) : (s.takeFault c).ERR = c.code := rfl
@[simp] theorem State.takeFault_RES (c : ErrCode) : (s.takeFault c).RES = Config.freeValue .res s.freeCount := rfl
@[simp] theorem State.takeFault_RVALID (c : ErrCode) : (s.takeFault c).RVALID = false := rfl
@[simp] theorem State.takeFault_ports (c : ErrCode) : (s.takeFault c).ports = s.ports := rfl
@[simp] theorem State.takeFault_pending (c : ErrCode) : (s.takeFault c).pending = s.pending := rfl
@[simp] theorem State.takeFault_freeCount (c : ErrCode) : (s.takeFault c).freeCount = s.freeCount + 1 := rfl

/-! ### `finish` -/

@[simp] theorem State.finish_LVALID (r : Word) : (s.finish r).LVALID = s.LVALID := rfl
@[simp] theorem State.finish_lay (r : Word) : (s.finish r).lay = s.lay := rfl
@[simp] theorem State.finish_FAULT (r : Word) : (s.finish r).FAULT = s.FAULT := rfl
@[simp] theorem State.finish_ERR (r : Word) : (s.finish r).ERR = s.ERR := rfl
@[simp] theorem State.finish_RES (r : Word) : (s.finish r).RES = r := rfl
@[simp] theorem State.finish_RVALID (r : Word) : (s.finish r).RVALID = true := rfl
@[simp] theorem State.finish_ports (r : Word) : (s.finish r).ports = s.ports := rfl
@[simp] theorem State.finish_pending (r : Word) : (s.finish r).pending = s.pending := rfl
@[simp] theorem State.finish_freeCount (r : Word) : (s.finish r).freeCount = s.freeCount := rfl

/-! ### `setLayout` -/

@[simp] theorem State.setLayout_LVALID (L : Layout) : (s.setLayout L).LVALID = true := rfl
@[simp] theorem State.setLayout_lay (L : Layout) : (s.setLayout L).lay = L := rfl
@[simp] theorem State.setLayout_FAULT (L : Layout) : (s.setLayout L).FAULT = s.FAULT := rfl
@[simp] theorem State.setLayout_ERR (L : Layout) : (s.setLayout L).ERR = s.ERR := rfl
@[simp] theorem State.setLayout_RES (L : Layout) : (s.setLayout L).RES = 0 := rfl
@[simp] theorem State.setLayout_RVALID (L : Layout) : (s.setLayout L).RVALID = true := rfl
@[simp] theorem State.setLayout_ports (L : Layout) : (s.setLayout L).ports = s.ports := rfl
@[simp] theorem State.setLayout_pending (L : Layout) : (s.setLayout L).pending = s.pending := rfl
@[simp] theorem State.setLayout_freeCount (L : Layout) : (s.setLayout L).freeCount = s.freeCount + 1 := rfl

/-! ### `applyReset` -/

@[simp] theorem State.applyReset_LVALID : (s.applyReset).LVALID = false := rfl
@[simp] theorem State.applyReset_lay : (s.applyReset).lay = Layout.unspecified s.freeCount := rfl
@[simp] theorem State.applyReset_FAULT : (s.applyReset).FAULT = false := rfl
@[simp] theorem State.applyReset_ERR : (s.applyReset).ERR = 0 := rfl
@[simp] theorem State.applyReset_RES : (s.applyReset).RES = Config.freeValue .res s.freeCount := rfl
@[simp] theorem State.applyReset_RVALID : (s.applyReset).RVALID = false := rfl
@[simp] theorem State.applyReset_ports : (s.applyReset).ports = s.ports := rfl
@[simp] theorem State.applyReset_pending : (s.applyReset).pending = s.pending := rfl
@[simp] theorem State.applyReset_freeCount : (s.applyReset).freeCount = s.freeCount + 1 := rfl

/-! ### `sample` -/

@[simp] theorem State.sample_LVALID (p : Ports) (rest : List Ports) : (s.sample p rest).LVALID = s.LVALID := rfl
@[simp] theorem State.sample_lay (p : Ports) (rest : List Ports) : (s.sample p rest).lay = s.lay := rfl
@[simp] theorem State.sample_FAULT (p : Ports) (rest : List Ports) : (s.sample p rest).FAULT = s.FAULT := rfl
@[simp] theorem State.sample_ERR (p : Ports) (rest : List Ports) : (s.sample p rest).ERR = s.ERR := rfl
@[simp] theorem State.sample_RES (p : Ports) (rest : List Ports) : (s.sample p rest).RES = s.RES := rfl
@[simp] theorem State.sample_RVALID (p : Ports) (rest : List Ports) : (s.sample p rest).RVALID = s.RVALID := rfl
@[simp] theorem State.sample_ports (p : Ports) (rest : List Ports) : (s.sample p rest).ports = p := rfl
@[simp] theorem State.sample_pending (p : Ports) (rest : List Ports) : (s.sample p rest).pending = rest := rfl
@[simp] theorem State.sample_freeCount (p : Ports) (rest : List Ports) : (s.sample p rest).freeCount = s.freeCount := rfl

/-! ### `withFetchWord` -/

@[simp] theorem State.withFetchWord_LVALID (nbits w : Nat) : (s.withFetchWord nbits w).LVALID = s.LVALID := by
  unfold State.withFetchWord; split <;> rfl
@[simp] theorem State.withFetchWord_lay (nbits w : Nat) : (s.withFetchWord nbits w).lay = s.lay := by
  unfold State.withFetchWord; split <;> rfl
@[simp] theorem State.withFetchWord_FAULT (nbits w : Nat) : (s.withFetchWord nbits w).FAULT = s.FAULT := by
  unfold State.withFetchWord; split <;> rfl
@[simp] theorem State.withFetchWord_ERR (nbits w : Nat) : (s.withFetchWord nbits w).ERR = s.ERR := by
  unfold State.withFetchWord; split <;> rfl
@[simp] theorem State.withFetchWord_freeCount (nbits w : Nat) : (s.withFetchWord nbits w).freeCount = s.freeCount := by
  unfold State.withFetchWord; split <;> rfl

/-- A command word placed by `withFetchWord` is the one the next step takes. -/
theorem State.take_withFetchWord (nbits w : Nat) :
    ∃ p rest, (s.withFetchWord nbits w).take = ((s.sample p rest).takePresentation) ∧
      p.CMD = BitVec.ofNat 32 (w % 2 ^ nbits) ∧ p.RESET = false := by
  unfold State.withFetchWord
  split
  · exact ⟨_, _, rfl, rfl, rfl⟩
  · exact ⟨_, _, rfl, rfl, rfl⟩

end Sys2Proof.Machine
end

