-- ==== Sys2Proof/Laws/Ops.lean ====
section
/-! SUPPORT. What each shared operation can do, said once: the cases of `compute`, of a presentation and of a step, and
the shape of every command's meaning. -/

namespace Sys2Proof.Machine

variable {s t : State}

/-- A fault entry of the model is one of R194. -/
theorem State.takeFault_faultEntry (s : State) (c : ErrCode) : s.FaultEntry c (s.takeFault c) := rfl

theorem State.compute_noLayout (h : s.LVALID = false) (f : Layout → Except ErrCode Word) :
    s.compute f = s.takeFault .nolayout := by
  simp [State.compute, h]

theorem State.compute_error {f : Layout → Except ErrCode Word} {c : ErrCode} (h : s.LVALID = true)
    (hf : f s.lay = .error c) : s.compute f = s.takeFault c := by
  simp [State.compute, h, hf]

theorem State.compute_ok {f : Layout → Except ErrCode Word} {r : Word} (h : s.LVALID = true)
    (hf : f s.lay = .ok r) : s.compute f = s.finish r := by
  simp [State.compute, h, hf]

/-- Everything `compute` can do. -/
theorem State.compute_cases (s : State) (f : Layout → Except ErrCode Word) :
    (s.LVALID = false ∧ s.compute f = s.takeFault .nolayout) ∨
    (∃ c, s.LVALID = true ∧ f s.lay = .error c ∧ s.compute f = s.takeFault c) ∨
    (∃ r, s.LVALID = true ∧ f s.lay = .ok r ∧ s.compute f = s.finish r) := by
  cases h : s.LVALID with
  | false => exact .inl ⟨rfl, State.compute_noLayout h f⟩
  | true =>
    cases hf : f s.lay with
    | error c => exact .inr (.inl ⟨c, rfl, rfl, State.compute_error h hf⟩)
    | ok r => exact .inr (.inr ⟨r, rfl, rfl, State.compute_ok h hf⟩)

theorem Layout.withField_lt {L : Layout} {i : BitVec 7} (h : i.toNat < L.n) (v : Nat → Word) :
    L.withField i v = .ok (v i.toNat) := by
  simp [Layout.withField, Nat.not_le.mpr h]

theorem Layout.withField_ge {L : Layout} {i : BitVec 7} (h : L.n ≤ i.toNat) (v : Nat → Word) :
    L.withField i v = .error .index := by
  simp [Layout.withField, h]

theorem Layout.withRange_ok {L : Layout} {a b : BitVec 7} (h : a.toNat < b.toNat) (h' : b.toNat ≤ L.n)
    (v : Nat → Nat → Word) : L.withRange a b v = .ok (v a.toNat b.toNat) := by
  simp [Layout.withRange, Nat.not_le.mpr h, Nat.not_lt.mpr h']

theorem Layout.withRange_error {L : Layout} {a b : BitVec 7} (h : b.toNat ≤ a.toNat ∨ L.n < b.toNat)
    (v : Nat → Nat → Word) : L.withRange a b v = .error .slice := by
  simp [Layout.withRange, h]

/-- The checks and the result of a command other than `computeLayout`, as a function of the layout registers: every
such command is `compute` of it. -/
def Instr.body (p : Ports) : Instr → Layout → Except ErrCode Word
  | .computeLayout _ _ => fun _ => .ok 0
  | .layoutRead sel i => fun L => if sel.indexed then L.withField i (L.selected sel) else .ok (L.selected sel 0)
  | .pack => fun L => .ok (L.packLanes p)
  | .unpackUnsigned i => fun L => L.withField i fun k => BitVec.ofNat 64 (L.fld p.A k)
  | .unpackSigned i => fun L => L.withField i fun k => BitVec.ofInt 64 (L.sfld p.A k)
  | .equal => fun L => .ok (if L.conf p.A = L.conf p.B then 1 else 0)
  | .addWrap => fun L => .ok (L.addWrap p.A p.B)
  | .subWrap => fun L => .ok (L.subWrap p.A p.B)
  | .addUnsignedSaturate => fun L => .ok (L.addUnsignedSaturate p.A p.B)
  | .subUnsignedSaturate => fun L => .ok (L.subUnsignedSaturate p.A p.B)
  | .addSignedSaturate => fun L => .ok (L.addSignedSaturate p.A p.B)
  | .subSignedSaturate => fun L => .ok (L.subSignedSaturate p.A p.B)
  | .minUnsigned => fun L => .ok (L.minUnsigned p.A p.B)
  | .maxUnsigned => fun L => .ok (L.maxUnsigned p.A p.B)
  | .minSigned => fun L => .ok (L.minSigned p.A p.B)
  | .maxSigned => fun L => .ok (L.maxSigned p.A p.B)
  | .slice first last => fun L => L.withRange first last (L.sliceFields p.A)
  | .shiftLeft => fun L => .ok (L.shiftLeft p.A p.B)
  | .shiftRightUnsigned => fun L => .ok (L.shiftRightUnsigned p.A p.B)

/-- Every command but `computeLayout` is `compute` of its body. -/
theorem exec_compute {i : Instr} (h : Instr.isComputeLayout i = false) (s : State) :
    exec i s = .next (s.compute (Instr.body s.ports i)) := by
  cases i <;> first | rfl | (simp [Instr.isComputeLayout] at h)

/-- Everything `computeLayout` can do. -/
theorem execComputeLayout_cases (n : BitVec 7) (cw : ContainerChoice) (s : State) :
    (∃ c, checkWidths n.toNat (s.ports.widthList n.toNat) cw = some c ∧
      exec (.computeLayout n cw) s = .next (s.takeFault c)) ∨
    (checkWidths n.toNat (s.ports.widthList n.toNat) cw = none ∧
      exec (.computeLayout n cw) s = .next (s.setLayout (deriveLayout s.freeCount (s.ports.widthList n.toNat)
        (container (s.ports.widthList n.toNat).sum cw)))) := by
  cases h : checkWidths n.toNat (s.ports.widthList n.toNat) cw with
  | some c => exact .inl ⟨c, rfl, by simp [exec, execComputeLayout, h]⟩
  | none => exact .inr ⟨rfl, by simp [exec, execComputeLayout, h]⟩

/-- Everything a presentation can do (R193). -/
theorem State.takePresentation_cases (s : State) :
    (s.ports.RESET = true ∧ s.takePresentation = .done s.applyReset) ∨
    (s.ports.RESET = false ∧ s.FAULT = true ∧ s.takePresentation = .done s) ∨
    (∃ e, s.ports.RESET = false ∧ s.FAULT = false ∧ decode s.ports.CMD = .error e ∧
      s.takePresentation = .done (s.takeFault .illcmd)) ∨
    (∃ i, s.ports.RESET = false ∧ s.FAULT = false ∧ decode s.ports.CMD = .ok i ∧
      s.takePresentation = .command i s) := by
  unfold State.takePresentation
  cases hr : s.ports.RESET <;> cases hf : s.FAULT <;> cases hd : decode s.ports.CMD <;> simp_all

/-- Everything a step can do. -/
theorem step_cases (s : State) :
    (s.pending = [] ∧ step s = .next s) ∨
    (∃ p rest, s.pending = p :: rest ∧ p.RESET = true ∧ step s = .next (s.sample p rest).applyReset) ∨
    (∃ p rest, s.pending = p :: rest ∧ p.RESET = false ∧ s.FAULT = true ∧ step s = .next (s.sample p rest)) ∨
    (∃ p rest e, s.pending = p :: rest ∧ p.RESET = false ∧ s.FAULT = false ∧ decode p.CMD = .error e ∧
      step s = .next ((s.sample p rest).takeFault .illcmd)) ∨
    (∃ p rest i, s.pending = p :: rest ∧ p.RESET = false ∧ s.FAULT = false ∧ decode p.CMD = .ok i ∧
      step s = exec i (s.sample p rest)) := by
  cases hp : s.pending with
  | nil => exact .inl ⟨rfl, by simp [step, State.take, hp]⟩
  | cons p rest =>
    obtain ⟨hr, h⟩ | ⟨hr, hf, h⟩ | ⟨e, hr, hf, hd, h⟩ | ⟨i, hr, hf, hd, h⟩ :=
      (s.sample p rest).takePresentation_cases
    · exact .inr (.inl ⟨p, rest, rfl, hr, by simp [step, State.take, hp, h]⟩)
    · exact .inr (.inr (.inl ⟨p, rest, rfl, hr, hf, by simp [step, State.take, hp, h]⟩))
    · exact .inr (.inr (.inr (.inl ⟨p, rest, e, rfl, hr, hf, hd, by simp [step, State.take, hp, h]⟩)))
    · exact .inr (.inr (.inr (.inr ⟨p, rest, i, rfl, hr, hf, hd, by simp [step, State.take, hp, h]⟩)))

end Sys2Proof.Machine
end

