-- ==== Sys2Proof/Laws/PerInstr.lean ====
section
/-! SUPPORT. Statements made once per command, as syntax. Family `EncodedFields`: the command's word carries its opcode,
and every field that its row of R63 shows as 0 is zero, so that R64 does not make the word illegal for it. -/

namespace Sys2Proof.Laws

/-- The family's statement. -/
def EncodedFields.Statement (i : Instr) : Prop :=
  zeroField (encode i) = 0 ∧ opField (encode i) = i.opcode ∧ i.opcode ∈ opcodes ∧
    (i.opcode ∉ opcodesWithF1 → f1Field (encode i) = 0) ∧
    (i.opcode ∉ opcodesWithF2 → f2Field (encode i) = 0) ∧
    (i.opcode ≠ 0x01 → cwField (encode i) = 0)

theorem EncodedFields.computeLayout (n : BitVec 7) (cw : ContainerChoice) : EncodedFields.Statement (.computeLayout n cw) := by
  simp [EncodedFields.Statement, encode, Instr.opcode, opcodes, opcodesWithF1, opcodesWithF2]

theorem EncodedFields.layoutRead (sel : Selector) (i : BitVec 7) : EncodedFields.Statement (.layoutRead sel i) := by
  simp [EncodedFields.Statement, encode, Instr.opcode, opcodes, opcodesWithF1, opcodesWithF2]

theorem EncodedFields.pack : EncodedFields.Statement (.pack) := by
  simp [EncodedFields.Statement, encode, Instr.opcode, opcodes, opcodesWithF1, opcodesWithF2]

theorem EncodedFields.unpackUnsigned (i : BitVec 7) : EncodedFields.Statement (.unpackUnsigned i) := by
  simp [EncodedFields.Statement, encode, Instr.opcode, opcodes, opcodesWithF1, opcodesWithF2]

theorem EncodedFields.unpackSigned (i : BitVec 7) : EncodedFields.Statement (.unpackSigned i) := by
  simp [EncodedFields.Statement, encode, Instr.opcode, opcodes, opcodesWithF1, opcodesWithF2]

theorem EncodedFields.equal : EncodedFields.Statement (.equal) := by
  simp [EncodedFields.Statement, encode, Instr.opcode, opcodes, opcodesWithF1, opcodesWithF2]

theorem EncodedFields.addWrap : EncodedFields.Statement (.addWrap) := by
  simp [EncodedFields.Statement, encode, Instr.opcode, opcodes, opcodesWithF1, opcodesWithF2]

theorem EncodedFields.subWrap : EncodedFields.Statement (.subWrap) := by
  simp [EncodedFields.Statement, encode, Instr.opcode, opcodes, opcodesWithF1, opcodesWithF2]

theorem EncodedFields.addUnsignedSaturate : EncodedFields.Statement (.addUnsignedSaturate) := by
  simp [EncodedFields.Statement, encode, Instr.opcode, opcodes, opcodesWithF1, opcodesWithF2]

theorem EncodedFields.subUnsignedSaturate : EncodedFields.Statement (.subUnsignedSaturate) := by
  simp [EncodedFields.Statement, encode, Instr.opcode, opcodes, opcodesWithF1, opcodesWithF2]

theorem EncodedFields.addSignedSaturate : EncodedFields.Statement (.addSignedSaturate) := by
  simp [EncodedFields.Statement, encode, Instr.opcode, opcodes, opcodesWithF1, opcodesWithF2]

theorem EncodedFields.subSignedSaturate : EncodedFields.Statement (.subSignedSaturate) := by
  simp [EncodedFields.Statement, encode, Instr.opcode, opcodes, opcodesWithF1, opcodesWithF2]

theorem EncodedFields.minUnsigned : EncodedFields.Statement (.minUnsigned) := by
  simp [EncodedFields.Statement, encode, Instr.opcode, opcodes, opcodesWithF1, opcodesWithF2]

theorem EncodedFields.maxUnsigned : EncodedFields.Statement (.maxUnsigned) := by
  simp [EncodedFields.Statement, encode, Instr.opcode, opcodes, opcodesWithF1, opcodesWithF2]

theorem EncodedFields.minSigned : EncodedFields.Statement (.minSigned) := by
  simp [EncodedFields.Statement, encode, Instr.opcode, opcodes, opcodesWithF1, opcodesWithF2]

theorem EncodedFields.maxSigned : EncodedFields.Statement (.maxSigned) := by
  simp [EncodedFields.Statement, encode, Instr.opcode, opcodes, opcodesWithF1, opcodesWithF2]

theorem EncodedFields.slice (first last : BitVec 7) : EncodedFields.Statement (.slice first last) := by
  simp [EncodedFields.Statement, encode, Instr.opcode, opcodes, opcodesWithF1, opcodesWithF2]

theorem EncodedFields.shiftLeft : EncodedFields.Statement (.shiftLeft) := by
  simp [EncodedFields.Statement, encode, Instr.opcode, opcodes, opcodesWithF1, opcodesWithF2]

theorem EncodedFields.shiftRightUnsigned : EncodedFields.Statement (.shiftRightUnsigned) := by
  simp [EncodedFields.Statement, encode, Instr.opcode, opcodes, opcodesWithF1, opcodesWithF2]

end Sys2Proof.Laws
end

