-- ==== Sys2Proof/Tests/Slice0.lean ====
section
/-! SUPPORT. Tests: ill-formed commands, words written out from R63, single commands on the spec's own vectors
(95_test_vectors.md, sections named in the comments), and for each statement with hypotheses a witness that meets them. -/

namespace Sys2Proof.Tests

open Sys2Proof.Machine

/-! ### WellFormed: a scalar selector takes no index (R64) -/

theorem test_wf_refuses_scalar_index_n : Instr.wellFormed (.layoutRead .n 1) = false := by decide
theorem test_wf_refuses_scalar_index_cbits : Instr.wellFormed (.layoutRead .cbits 127) = false := by decide
theorem test_wf_refuses_scalar_index_sumw : Instr.wellFormed (.layoutRead .sumw 2) = false := by decide
theorem test_wf_refuses_scalar_index_lomask : Instr.wellFormed (.layoutRead .lomask 1) = false := by decide
theorem test_wf_refuses_scalar_index_himask : Instr.wellFormed (.layoutRead .himask 64) = false := by decide
theorem test_wf_refuses_scalar_index_validbits : Instr.wellFormed (.layoutRead .validbits 1) = false := by decide
theorem test_wf_accepts_indexed : Instr.wellFormed (.layoutRead .width 127) = true := by decide

/-! ### Decoding: one word per command, written from the encoding strings of the table (bit 31 first) -/

theorem test_decode_computeLayout : decode 0b0000000_001_0000000_0000011_00000001 = .ok (.computeLayout 3 .c8) := by decide
theorem test_decode_layoutRead : decode 0b0000000_000_0000111_0000010_00000010 = .ok (.layoutRead .offset 2) := by decide
theorem test_decode_pack : decode 0b0000000_000_0000000_0000000_00010000 = .ok (.pack) := by decide
theorem test_decode_unpackUnsigned : decode 0b0000000_000_0000000_0000001_00010001 = .ok (.unpackUnsigned 1) := by decide
theorem test_decode_unpackSigned : decode 0b0000000_000_0000000_1000000_00010010 = .ok (.unpackSigned 64) := by decide
theorem test_decode_equal : decode 0b0000000_000_0000000_0000000_00010011 = .ok (.equal) := by decide
theorem test_decode_addWrap : decode 0b0000000_000_0000000_0000000_00100000 = .ok (.addWrap) := by decide
theorem test_decode_subWrap : decode 0b0000000_000_0000000_0000000_00100001 = .ok (.subWrap) := by decide
theorem test_decode_addUnsignedSaturate : decode 0b0000000_000_0000000_0000000_00110000 = .ok (.addUnsignedSaturate) := by decide
theorem test_decode_subUnsignedSaturate : decode 0b0000000_000_0000000_0000000_00110001 = .ok (.subUnsignedSaturate) := by decide
theorem test_decode_addSignedSaturate : decode 0b0000000_000_0000000_0000000_00110010 = .ok (.addSignedSaturate) := by decide
theorem test_decode_subSignedSaturate : decode 0b0000000_000_0000000_0000000_00110011 = .ok (.subSignedSaturate) := by decide
theorem test_decode_minUnsigned : decode 0b0000000_000_0000000_0000000_01000000 = .ok (.minUnsigned) := by decide
theorem test_decode_maxUnsigned : decode 0b0000000_000_0000000_0000000_01000001 = .ok (.maxUnsigned) := by decide
theorem test_decode_minSigned : decode 0b0000000_000_0000000_0000000_01000010 = .ok (.minSigned) := by decide
theorem test_decode_maxSigned : decode 0b0000000_000_0000000_0000000_01000011 = .ok (.maxSigned) := by decide
theorem test_decode_slice : decode 0b0000000_000_1000000_0111111_01010000 = .ok (.slice 63 64) := by decide
theorem test_decode_shiftLeft : decode 0b0000000_000_0000000_0000000_01100000 = .ok (.shiftLeft) := by decide
theorem test_decode_shiftRightUnsigned : decode 0b0000000_000_0000000_0000000_01100001 = .ok (.shiftRightUnsigned) := by decide

/-! Illegal words of section 2.9, each rejected under its own name. -/

theorem test_decode_rejects_all_zero : decode 0x00000000 = .error .unknownOpcode := by decide
theorem test_decode_rejects_all_ones : decode 0xFFFFFFFF = .error .reservedBits := by decide
theorem test_decode_rejects_bit_25 : decode 0x02000020 = .error .reservedBits := by decide
theorem test_decode_rejects_op_62 : decode 0x00000062 = .error .unknownOpcode := by decide
theorem test_decode_rejects_f1_on_add_wrap : decode 0x00000120 = .error .unusedF1 := by decide
theorem test_decode_rejects_f2_on_add_wrap : decode 0x00008020 = .error .unusedF2 := by decide
theorem test_decode_rejects_cw_on_add_wrap : decode 0x00400020 = .error .unusedCw := by decide
theorem test_decode_rejects_cw_5 : decode 0x01400301 = .error .reservedContainer := by decide
theorem test_decode_rejects_selector_9 : decode 0x00048002 = .error .reservedSelector := by decide
theorem test_decode_rejects_scalar_with_index : decode 0x00018102 = .error .indexOnScalarSelector := by decide
theorem test_decode_rejects_f2_on_unpack : decode 0x00008111 = .error .unusedF2 := by decide
theorem test_decode_rejects_cw_on_slice : decode 0x00418150 = .error .unusedCw := by decide

theorem test_table_word_out_of_range : decodeTableWord 40 0x20 = none := by decide
theorem test_table_word_add_wrap : decodeTableWord 32 0x20 = some .addWrap := by decide

/-! ### Single commands -/

/-- A unit with a compiled layout and data on its ports. -/
def unit (ws : List Nat) (cw : ContainerChoice) (A B : Word) (vin : List Word) : State :=
  { State.reset with
    LVALID := true
    lay := deriveLayout 0 ws (container ws.sum cw)
    ports := { Ports.idle with A := A, B := B, VIN := Vector.ofFn fun i => vin[i.val]?.getD 0 } }

/-- The unit as reset leaves it, with values on the lanes. -/
def fresh (vin : List Word) : State :=
  { State.reset with ports := { Ports.idle with VIN := Vector.ofFn fun i => vin[i.val]?.getD 0 } }

/-- The result a command delivers, none where it faults. -/
def result (o : Host.Outcome State Fault Refusal) : Option Word :=
  match o with
  | .next t => t.delivered
  | .fault _ => none
  | .refused _ => none

/-- `FAULT`, `ERR` and `RVALID` after a command. -/
def status (o : Host.Outcome State Fault Refusal) : Option (Bool × BitVec 4 × Bool) :=
  match o with
  | .next t => some (t.FAULT, t.ERR, t.RVALID)
  | .fault _ => none
  | .refused _ => none

/-- Scalar layout registers after a command: `LN`, `LSUM`, `LC`, `LLO`, `LHI`, `LVM`. -/
def scalars (o : Host.Outcome State Fault Refusal) : Option (List Nat) :=
  match o with
  | .next t => some [t.lay.LN.toNat, t.lay.LSUM.toNat, t.lay.LC.toNat, t.lay.LLO.toNat, t.lay.LHI.toNat, t.lay.LVM.toNat]
  | .fault _ => none
  | .refused _ => none

-- 2.1
theorem test_computeLayout_masks : scalars (exec (.computeLayout 7 .auto) (fresh [1, 2, 3, 4, 5, 6, 11])) =
    some [7, 32, 32, 0x20844B, 0x80104225, 0xFFFFFFFF] := by decide
-- 2.1: "exact sum: `2^64 - 1` and 2 sum to `2^64 + 1`, not 1"
theorem test_computeLayout_exact_sum : status (exec (.computeLayout 2 .auto) (fresh [0xFFFFFFFFFFFFFFFF, 2])) =
    some (true, 5, false) := by decide
-- 2.2
theorem test_layoutRead_offset : result (exec (.layoutRead .offset 2) (unit [5, 6, 5] .auto 0 0 [])) = some 0xB := by decide
theorem test_layoutRead_index : status (exec (.layoutRead .width 3) (unit [5, 6, 5] .auto 0 0 [])) = some (true, 6, false) := by
  decide
-- 2.3
theorem test_pack_truncates : result (exec .pack (unit [5, 6, 5] .auto 0 0 [33, 124, 0xFFFFFFFFFFFFFFFF])) =
    some 0xFF81 := by decide
theorem test_pack_no_layout : status (exec .pack (fresh [1, 2, 3])) = some (true, 2, false) := by decide
theorem test_unpackUnsigned_stray_bits : result (exec (.unpackUnsigned 2) (unit [5, 6, 5] .auto 0xFFFFFFFFFFFF5781 0 [])) =
    some 0xA := by decide
theorem test_unpackUnsigned_width_64 : result (exec (.unpackUnsigned 0) (unit [64] .auto 0xFFFFFFFFFFFFFFFF 0 [])) =
    some 0xFFFFFFFFFFFFFFFF := by decide
theorem test_unpackSigned_negative : result (exec (.unpackSigned 1) (unit [5, 6, 5] .auto 0x5781 0 [])) =
    some 0xFFFFFFFFFFFFFFFC := by decide
theorem test_unpackSigned_width_1 : result (exec (.unpackSigned 0) (unit [1] .auto 1 0 [])) =
    some 0xFFFFFFFFFFFFFFFF := by decide
theorem test_equal_ignores_stray_bits : result (exec .equal (unit [5, 6, 5] .c32 0x15781 0x5781 [])) = some 1 := by decide
theorem test_equal_differs : result (exec .equal (unit [5, 6, 5] .auto 0x5781 0x5780 [])) = some 0 := by decide
-- 2.4
theorem test_addWrap_source_scenario : result (exec .addWrap (unit [5, 6, 5] .auto 0x5781 0xDA9F [])) = some 0x2A00 := by
  decide
theorem test_addWrap_no_carry_crosses : result (exec .addWrap (unit [63, 1] .auto 0xFFFFFFFFFFFFFFFF 0x8000000000000001 [])) =
    some 0 := by decide
theorem test_subWrap_no_borrow_crosses : result (exec .subWrap (unit [5, 6, 5] .auto 0 0x821 [])) = some 0xFFFF := by decide
theorem test_subWrap_operand_order : result (exec .subWrap (unit [5, 6, 5] .auto 0x2A00 0xDA9F [])) = some 0x5781 := by decide
-- 2.5
theorem test_addUnsignedSaturate_boundary : result (exec .addUnsignedSaturate (unit [3, 3, 3] .auto 0xE3 0xE4 [])) =
    some 0x1BF := by decide
theorem test_addUnsignedSaturate_width_64 :
    result (exec .addUnsignedSaturate (unit [64] .auto 0xFFFFFFFFFFFFFFFF 1 [])) = some 0xFFFFFFFFFFFFFFFF := by decide
theorem test_subUnsignedSaturate_fields : result (exec .subUnsignedSaturate (unit [3, 3, 3] .auto 0xF1 0xE7 [])) =
    some 0x10 := by decide
theorem test_subUnsignedSaturate_no_borrow : result (exec .subUnsignedSaturate (unit [4] .auto 5 3 [])) = some 2 := by decide
theorem test_addSignedSaturate_both_ends : result (exec .addSignedSaturate (unit [8, 8, 8, 8] .auto 0xFF80407F 0x1808001 [])) =
    some 0x80C07F := by decide
theorem test_addSignedSaturate_width_1 : result (exec .addSignedSaturate (unit [1, 1, 1] .auto 3 5 [])) = some 7 := by decide
theorem test_subSignedSaturate_clamps : result (exec .subSignedSaturate (unit [4, 4, 4] .auto 0x8F0 0x888 [])) =
    some 0x77 := by decide
theorem test_subSignedSaturate_width_64 :
    result (exec .subSignedSaturate (unit [64] .auto 0x8000000000000000 1 [])) = some 0x8000000000000000 := by decide
-- 2.6
theorem test_minUnsigned_fields : result (exec .minUnsigned (unit [4, 4, 4] .auto 0x387 0x31F [])) = some 0x317 := by decide
theorem test_maxUnsigned_fields : result (exec .maxUnsigned (unit [4, 4, 4] .auto 0x387 0x31F [])) = some 0x38F := by decide
theorem test_minSigned_fields : result (exec .minSigned (unit [4, 4, 4] .auto 0x387 0x31F [])) = some 0x38F := by decide
theorem test_maxSigned_fields : result (exec .maxSigned (unit [4, 4, 4] .auto 0x387 0x31F [])) = some 0x317 := by decide
-- 2.7
theorem test_slice_run : result (exec (.slice 2 5) (unit [1, 2, 3, 4, 5, 6, 11] .auto 0x8030C66D 0 [])) = some 0x8CD := by
  decide
theorem test_slice_empty_range : status (exec (.slice 1 1) (unit [5, 6, 5] .auto 0x5781 0 [])) = some (true, 7, false) := by
  decide
-- 2.8
theorem test_shiftLeft_clears_narrow_fields : result (exec .shiftLeft (unit [5, 6, 5] .auto 0xFFFF 5 [])) = some 0x400 := by
  decide
theorem test_shiftLeft_amount_not_reduced : result (exec .shiftLeft (unit [5, 6, 5] .auto 0xFFFF 0x100000000 [])) =
    some 0 := by decide
theorem test_shiftRight_fields : result (exec .shiftRightUnsigned (unit [5, 6, 5] .auto 0x5781 2 [])) = some 0x11E0 := by
  decide
theorem test_shiftRight_largest_amount :
    result (exec .shiftRightUnsigned (unit [5, 6, 5] .auto 0xFFFF 0xFFFFFFFFFFFFFFFF [])) = some 0 := by decide

/-! ### Steps -/

-- 2.9, P4 step 1
theorem test_step_no_layout : status (step (State.reset.withFetchWord 32 0x20)) = some (true, 2, false) := by decide
-- 2.9: an illegal word after reset, `E_ILLCMD` outranks `E_NOLAYOUT`
theorem test_step_illegal_first : status (step (State.reset.withFetchWord 32 0x120)) = some (true, 1, false) := by decide
-- 2.9, last line: an illegal word to a unit faulted with `E_INDEX` is refused
theorem test_step_faulted_refuses :
    status (step (({ unit [5, 6, 5] .auto 0 0 [] with FAULT := true, ERR := 6 } : State).withFetchWord 32 0)) =
      some (true, 6, false) := by decide
-- S1 step 4, through the decoder
theorem test_step_runs_placed_word :
    result (step ((unit [5, 6, 5] .auto 0x5781 0xDA9F []).withFetchWord 32 0x20)) = some 0x2A00 := by decide

/-! ### The assembler (R68, R69) -/

-- P5 line 1: `computeLayout (2, 3), container=16` is `0x00800201`
theorem test_assemble_container :
    ((AsmLine.computeLayout [2, 3] .c16).assemble.map ProgramLine.cmd) = some 0x00800201 := by decide
-- R69: `unpack a, i` means `unpack_unsigned a, i`
theorem test_assemble_unpack : (AsmLine.unpack (.lit 5) 1).assemble = (AsmLine.unpackUnsigned (.lit 5) 1).assemble := by decide
-- R68: `pack (-1, ...)` presents the values in 64-bit two's complement
theorem test_assemble_pack_sign : ((AsmLine.pack [-1]).assemble.map ProgramLine.vin) =
    some [.lit 0xFFFFFFFFFFFFFFFF] := by decide

/-! ### Witnesses

One state meets the hypotheses of most statements: layout (5, 6, 5), with operands whose stray bits are set. -/

/-- A ready unit under layout (5, 6, 5). -/
def ready565 : State := unit [5, 6, 5] .auto 0xFFFFFFFFFFFF5781 0xDA9F [1, 60, 10]

theorem layout565_wf : ready565.lay.WF := deriveLayout_wf (by decide) (by decide) (by decide) (by decide) (by decide)

theorem ready565_ready : ready565.Ready := ⟨rfl, rfl, layout565_wf⟩

theorem ready565_inv : ready565.Inv :=
  ⟨fun _ => layout565_wf, fun _ => rfl, fun h => (by cases h), fun h => (by cases h), fun h => (by cases h)⟩

/-- The presentation of a word with nothing else driven. -/
def present (w : CmdWord) (reset : Bool) : Ports := { Ports.idle with CMD := w, RESET := reset }

/-- `s` with one presentation waiting. -/
def given (s : State) (w : CmdWord) (reset : Bool) : State := { s with pending := [present w reset] }

/-- A faulted unit. -/
def faulted565 : State := { ready565 with FAULT := true, ERR := 6 }

theorem witness_DecodeAfterEncode :
    Instr.wellFormed (.slice 127 0) = true ∧ Instr.wellFormed (.layoutRead .fieldmask 127) = true :=
  by decide

theorem witness_EncodeAfterDecode :
    decode 0x01003F01 = .ok (.computeLayout 63 .c64) :=
  by decide

theorem witness_IllegalWordsRaiseIllcmd :
    (given ready565 0x20 false).pending = present 0x20 false :: [] ∧ (given ready565 0x01400301 false).FAULT = false ∧
      IllegalWord 0x01400301 ∧ IllegalWord 0xFFFFFFFF ∧ IllegalWord 0x00000120 ∧ IllegalWord 0x00008301 ∧
      IllegalWord 0x00400020 ∧ IllegalWord 0x00048002 ∧ IllegalWord 0x00018102 ∧ IllegalWord 0 :=
  by
  refine ⟨by decide, by decide, ?_, ?_, ?_, ?_, ?_, ?_, ?_, ?_⟩ <;> unfold IllegalWord <;> decide

theorem witness_StepRunsDecodedCommand :
    (given ready565 0x20 false).pending = present 0x20 false :: [] ∧ (present 0x20 false).RESET = false ∧
      (given ready565 0x20 false).FAULT = false ∧ decode (present 0x20 false).CMD = .ok .addWrap :=
  by decide

theorem witness_PlacedWordIsRunNext :
    State.reset.FAULT = false ∧ decodeTableWord 32 0x20 = some .addWrap :=
  by decide

theorem witness_ResetIsTheOnlyWayBack_reset :
    (given faulted565 0x20 true).pending = present 0x20 true :: [] ∧ (present 0x20 true).RESET = true :=
  by decide

theorem witness_ResetIsTheOnlyWayBack_cleared :
    ∃ s t : State, step s = .next t ∧ (s.FAULT = true ∧ t.FAULT = false) ∧ (s.LVALID = true ∧ t.LVALID = false) :=
  ⟨given faulted565 0x20 true, _, rfl, by decide, by decide⟩

theorem witness_ResetIsTheOnlyWayBack_waits :
    State.reset.pending = [] :=
  rfl

theorem witness_FaultedUnitRefusesEveryCommand :
    (given faulted565 0 false).Inv ∧ (given faulted565 0 false).FAULT = true ∧
      ∀ p ∈ (given faulted565 0 false).pending, p.RESET = false :=
  ⟨⟨fun _ => layout565_wf, fun h => (by cases h), fun _ => ⟨.index, rfl⟩, fun _ => rfl, fun h => (by cases h)⟩, rfl, by decide⟩

theorem witness_StepKeepsInvariant :
    ∃ s t : State, s.Inv ∧ s.LVALID = true ∧ step s = .next t ∧ t.RVALID = true :=
  ⟨given ready565 0x20 false, _, ⟨fun _ => layout565_wf, fun _ => rfl, fun h => (by cases h), fun h => (by cases h),
    fun h => (by cases h)⟩, rfl, rfl, by decide⟩

theorem witness_FaultEntryChangesNothingElse :
    ∃ t, ready565.FAULT = false ∧ exec (.unpackSigned 3) ready565 = .next t ∧ t.FAULT = true :=
  ⟨_, rfl, rfl, by decide⟩

theorem witness_OnlyListedFaultsOccur :
    ∃ t, (given ready565 0x311 false).FAULT = false ∧ step (given ready565 0x311 false) = .next t ∧ t.FAULT = true :=
  ⟨_, rfl, rfl, by decide⟩

/-- And the `E_NOLAYOUT` clauses of LayoutReadReturnsRegister, PackStoresEachLane, UnpackUnsignedReturnsField, UnpackSignedReturnsField, EqualComparesFields and SliceExtractsRun. -/
theorem witness_NoLayoutFault :
    Instr.isComputeLayout .shiftLeft = false ∧ State.reset.LVALID = false :=
  by decide

/-- And for UnpackSignedReturnsField and LayoutReadReturnsRegister; the boundary: the index is `LN` itself. -/
theorem witness_UnpackUnsignedReturnsField_index :
    ∃ (s : State) (k : BitVec 7) (sel : Selector), s.Ready ∧ k.toNat = s.lay.n ∧ s.lay.n ≤ k.toNat ∧ sel.indexed = true :=
  ⟨ready565, 3, .offset, ready565_ready, by decide, by decide, rfl⟩

/-- The boundary `first = last`. -/
theorem witness_SliceExtractsRun_empty :
    ready565.Ready ∧ (2 : BitVec 7).toNat ≤ (2 : BitVec 7).toNat :=
  ⟨ready565_ready, by decide⟩

/-- The boundary `last = LN + 1`. -/
theorem witness_SliceExtractsRun_beyond :
    ready565.Ready ∧ ready565.lay.n < (4 : BitVec 7).toNat :=
  ⟨ready565_ready, by decide⟩

/-- The boundary `n = 65`; the clause `n = 0` needs no witness. -/
theorem witness_ComputeLayoutFaultOrder_toowide :
    64 < (65 : BitVec 7).toNat :=
  by decide

theorem witness_ComputeLayoutFaultOrder_zerow :
    (64 : BitVec 7).toNat ≤ 64 ∧ ∃ i < (64 : BitVec 7).toNat, (fresh [3, 0]).ports.lane i = 0 :=
  ⟨by decide, 1, by decide, by decide⟩

/-- A single width 65, too wide for the automatic and for every named container. -/
theorem witness_ComputeLayoutFaultOrder_sum :
    (1 : BitVec 7) ≠ 0 ∧ (1 : BitVec 7).toNat ≤ 64 ∧ (∀ i < (1 : BitVec 7).toNat, (fresh [65]).ports.lane i ≠ 0) ∧
      64 < ((List.range (1 : BitVec 7).toNat).map fun i => ((fresh [65]).ports.lane i).toNat).sum :=
  by decide

/-- The widest field, and a container filled exactly. -/
theorem witness_ComputeLayoutCompilesWidths :
    Instr.Accepted (fresh [64]) (.computeLayout 1 .auto) ∧ Instr.Accepted (fresh [5, 6, 5]) (.computeLayout 3 .c16) :=
  by
  simp only [Instr.Accepted]; decide

/-- The boundary: 8 fits container 8, 9 does not. -/
theorem witness_ContainerSelection :
    Instr.Accepted (fresh [8]) (.computeLayout 1 .c8) ∧ Instr.Accepted (fresh [8]) (.computeLayout 1 .c64) ∧
      container ((fresh [9]).ports.widthList 1).sum .c8 < ((fresh [9]).ports.widthList 1).sum :=
  by
  simp only [Instr.Accepted]; decide

theorem witness_LayoutInvariants :
    ready565.Inv ∧ ready565.LVALID = true :=
  ⟨ready565_inv, rfl⟩

theorem witness_LayoutStaysUntilReplaced_success :
    ∃ t, (fresh [5, 6, 5]).FAULT = false ∧ exec (.computeLayout 3 .auto) (fresh [5, 6, 5]) = .next t ∧ t.FAULT = false :=
  ⟨_, rfl, rfl, by decide⟩

theorem witness_LayoutStaysUntilReplaced_other :
    ∃ t, Instr.isComputeLayout .addWrap = false ∧ exec .addWrap ready565 = .next t :=
  ⟨_, rfl, rfl⟩

theorem witness_LayoutStaysUntilReplaced_step :
    ∃ s t : State, step s = .next t ∧ t.LVALID ≠ s.LVALID :=
  ⟨given ready565 0 true, _, rfl, by decide⟩

/-- The last field, and a scalar selector. -/
theorem witness_LayoutReadReturnsRegister :
    ready565.Ready ∧ Instr.Accepted ready565 (.layoutRead .fieldmask 2) ∧ Instr.Accepted ready565 (.layoutRead .n 0) :=
  ⟨ready565_ready, by simp only [Instr.Accepted]; decide, by simp only [Instr.Accepted]; decide⟩

/-- The boundary: selector 9. -/
theorem witness_LayoutReadReturnsRegister_reserved :
    opField 0x00048002 = 0x02 ∧ 8 < (f2Field 0x00048002).toNat :=
  by decide

/-- For UnpackUnsignedReturnsField and UnpackSignedReturnsField: the last field. -/
theorem witness_UnpackReturnsField :
    ready565.Ready ∧ (2 : BitVec 7).toNat < ready565.lay.n :=
  ⟨ready565_ready, by decide⟩

theorem witness_EqualComparesFields :
    ready565.Ready ∧ ready565.lay.conf ready565.ports.A ≠ ready565.lay.conf ready565.ports.B ∧
      ready565.lay.conf 0x15781 = ready565.lay.conf 0x5781 :=
  ⟨ready565_ready, by decide, by decide⟩

/-- S1: 0x5781 is pack (1, 60, 10). -/
theorem witness_PackUnpackRoundTrip :
    ∃ t, ready565.Ready ∧ (2 : BitVec 7).toNat < ready565.lay.n ∧ exec .pack ready565 = .next t ∧
      ready565.lay.conf 0x5781 = 0x5781 ∧
      ∀ i < ready565.lay.n, (ready565.ports.lane i).toNat = ready565.lay.fld 0x5781 i :=
  ⟨_, ready565_ready, by decide, rfl, by decide, by decide⟩

theorem witness_PackedResultsAreConformant :
    ∃ t u, ready565.Ready ∧ Instr.returnsPacked .subWrap = true ∧ exec .subWrap ready565 = .next t ∧
      Instr.Accepted ready565 (.slice 0 3) ∧ exec (.slice 0 3) ready565 = .next u :=
  ⟨_, _, ready565_ready, rfl, rfl, by simp only [Instr.Accepted]; decide, rfl⟩

/-- For PackStoresEachLane, AddWrapAddsEachField, SubWrapSubtractsEachField, AddUnsignedSaturateClamps, SubUnsignedSaturateClamps, AddSignedSaturateClamps, SubSignedSaturateClamps, UnsignedMinMaxSelectsField, SignedMinMaxSelectsField, ShiftLeftShiftsEachField and ShiftRightShiftsEachField, whose one hypothesis this is. -/
theorem witness_Ready :
    ready565.Ready :=
  ready565_ready

/-- For AddWrapClosedForm, SubWrapClosedForms, WrapLaws, UnsignedSaturateClosedForms, SignedSaturateClosedForms, MinMaxClosedForms and ShiftClosedForms, whose one hypothesis this is. -/
theorem witness_CompiledLayout :
    ∃ L : Layout, L.WF :=
  ⟨_, layout565_wf⟩

/-- For CarryVectorMarksOverflow, SignedOverflowVectors, BorrowVectorMarksLess and MinMaxLoseNothing. -/
theorem witness_ConformantOperands :
    ∃ (L : Layout) (a b : Word), L.WF ∧ L.conf a = a ∧ L.conf b = b ∧ a ≠ b :=
  ⟨_, 0x5781, 0xDA9F, layout565_wf, by decide, by decide, by decide⟩

/-- S3: the vector 0x808 under (4, 4, 4). -/
theorem witness_SaturationMaskByShift :
    ∃ (L : Layout) (v : Word), L.WF ∧ v &&& ~~~L.LHI = 0 ∧ v ≠ 0 ∧ ∀ i < L.n, L.width i = 4 :=
  ⟨deriveLayout 0 [4, 4, 4] 16, 0x808, deriveLayout_wf (by decide) (by decide) (by decide) (by decide) (by decide), by decide,
    by decide, by decide⟩

/-- For SliceExtractsRun and SliceFieldsOfSubLayout: `last = LN`. -/
theorem witness_SliceExtractsRun :
    ∃ t, ready565.Ready ∧ (1 : BitVec 7).toNat < (3 : BitVec 7).toNat ∧ (3 : BitVec 7).toNat ≤ ready565.lay.n ∧
      exec (.slice 1 3) ready565 = .next t :=
  ⟨_, ready565_ready, by decide, by decide, rfl⟩

/-- The boundary: the amount is the total width. -/
theorem witness_LargeShiftsClearTheWord :
    ∃ s : State, s.Ready ∧ s.lay.LSUM.toNat = s.ports.B.toNat :=
  ⟨unit [5, 6, 5] .auto 0xFFFF 16 [], ⟨rfl, rfl, layout565_wf⟩, by decide⟩

theorem witness_UnreadInputsHaveNoEffect :
    ∃ t, Instr.SameInputs ready565 ready565.ports { ready565.ports with B := 7 } (.unpackUnsigned 0) ∧
      exec (.unpackUnsigned 0) ready565 = .next t :=
  ⟨_, by simp only [Instr.SameInputs], rfl⟩

theorem witness_ContainerDoesNotAffectResults :
    ∃ t, Instr.isComputeLayout (.unpackSigned 1) = false ∧ Instr.unpackSigned 1 ≠ .layoutRead .cbits 0 ∧
      Instr.wellFormed (.unpackSigned 1) = true ∧ exec (.unpackSigned 1) ready565 = .next t :=
  ⟨_, rfl, by decide, rfl, rfl⟩

theorem witness_RepeatedCommandChangesNothing :
    ∃ t u, exec .addWrap ready565 = .next t ∧ t.FAULT = false ∧
      exec (.computeLayout 3 .auto) (fresh [5, 6, 5]) = .next u ∧ u.FAULT = false :=
  ⟨_, _, rfl, by decide, rfl, by decide⟩

theorem witness_AcceptedCommandsDoNotFault :
    ∃ t, ready565.FAULT = false ∧ ready565.LVALID = true ∧ Instr.Accepted ready565 (.slice 2 3) ∧
      exec (.slice 2 3) ready565 = .next t :=
  ⟨_, rfl, rfl, by simp only [Instr.Accepted]; decide, rfl⟩

end Sys2Proof.Tests
end

section
/-! The command a step takes from the host's queue (R9, R193): the presentation at its head is sampled, and an unfaulted
unit runs the legal word it finds there. -/

namespace Sys2Proof.Machine

variable {s : State} {p : Ports} {rest : List Ports} {i : Instr}

theorem State.take_of_pending_cons (h : s.pending = p :: rest) : s.take = (s.sample p rest).takePresentation := by
  simp [State.take, h]

theorem State.takePresentation_of_decode_ok (hreset : s.ports.RESET = false) (hfault : s.FAULT = false)
    (hdecode : decode s.ports.CMD = .ok i) : s.takePresentation = .command i s := by
  simp [State.takePresentation, hreset, hfault, hdecode]

theorem step_of_take_command {t : State} (h : s.take = .command i t) : step s = exec i t := by
  simp [step, h]

/-- Settles O6: the step samples the presentation at the head of the queue, and neither reset nor refusal nor an
illegal word keeps the unit from its command. -/
theorem stepRunsDecodedCommand : Obligations.StepRunsDecodedCommand := by
  intro s p rest i hpending hreset hfault hdecode
  have htake : s.take = .command i (s.sample p rest) :=
    (State.take_of_pending_cons hpending).trans (State.takePresentation_of_decode_ok hreset hfault hdecode)
  exact step_of_take_command htake

end Sys2Proof.Machine
end

section
/-! The invariant of the unit (R23, R34, R35, R191, R222): it holds of every reset state, each operation a command is
made of keeps it, and so does every step. -/

namespace Sys2Proof.Machine

variable {s t : State}

theorem State.AfterReset.inv (h : s.AfterReset) : s.Inv where
  layout_wf hv := by simp [h.lvalid] at hv
  err_none _ := h.err
  err_code hf := by simp [h.fault] at hf
  no_result _ := h.rvalid
  result_layout hr := by simp [h.rvalid] at hr

theorem State.reset_afterReset : State.reset.AfterReset := ⟨rfl, rfl, rfl, rfl⟩

theorem State.applyReset_afterReset (s : State) : s.applyReset.AfterReset := ⟨rfl, rfl, rfl, rfl⟩

/-- Neither the ports nor the host's queue is a register of the unit. -/
theorem State.Inv.sample (h : s.Inv) (p : Ports) (rest : List Ports) : (s.sample p rest).Inv :=
  ⟨h.layout_wf, h.err_none, h.err_code, h.no_result, h.result_layout⟩

theorem State.Inv.takeFault (h : s.Inv) (c : ErrCode) : (s.takeFault c).Inv where
  layout_wf := h.layout_wf
  err_none hf := by simp at hf
  err_code _ := ⟨c, rfl⟩
  no_result _ := rfl
  result_layout hr := by simp at hr

theorem State.Inv.finish (h : s.Inv) (hfault : s.FAULT = false) (hlayout : s.LVALID = true) (r : Word) :
    (s.finish r).Inv where
  layout_wf := h.layout_wf
  err_none := h.err_none
  err_code := h.err_code
  no_result hf := by simp [hfault] at hf
  result_layout _ := hlayout

theorem State.Inv.setLayout (h : s.Inv) (hfault : s.FAULT = false) {L : Layout} (wf : L.WF) : (s.setLayout L).Inv where
  layout_wf _ := wf
  err_none := h.err_none
  err_code := h.err_code
  no_result hf := by simp [hfault] at hf
  result_layout _ := rfl

theorem State.Inv.compute (h : s.Inv) (hfault : s.FAULT = false) (f : Layout → Except ErrCode Word) :
    (s.compute f).Inv := by
  obtain ⟨-, heq⟩ | ⟨c, -, -, heq⟩ | ⟨r, hlayout, -, heq⟩ := s.compute_cases f
  · exact heq ▸ h.takeFault .nolayout
  · exact heq ▸ h.takeFault c
  · exact heq ▸ h.finish hfault hlayout r

theorem exec_preserves_inv {i : Instr} (h : s.Inv) (hfault : s.FAULT = false) (hexec : exec i s = .next t) : t.Inv := by
  cases i with
  | computeLayout n cw =>
    obtain ⟨c, -, heq⟩ | ⟨hchecks, heq⟩ := execComputeLayout_cases n cw s
    · cases heq.symm.trans hexec
      exact h.takeFault c
    · cases heq.symm.trans hexec
      exact h.setLayout hfault (accepted_layout_wf s.freeCount ((checkWidths_none_iff s n cw).mp hchecks))
  | _ =>
    cases (exec_compute rfl s).symm.trans hexec
    exact h.compute hfault _

/-- Settles O12: each event of a step keeps the invariant, and a command executes only in a unit that is not faulted. -/
theorem stepKeepsInvariant : Obligations.StepKeepsInvariant := by
  intro s t h hstep
  obtain ⟨-, heq⟩ | ⟨p, rest, -, -, heq⟩ | ⟨p, rest, -, -, -, heq⟩ | ⟨p, rest, e, -, -, -, -, heq⟩ |
    ⟨p, rest, i, -, -, hfault, -, heq⟩ := step_cases s
  case inr.inr.inr.inr => exact exec_preserves_inv (h.sample p rest) hfault (heq.symm.trans hstep)
  all_goals cases heq.symm.trans hstep
  · exact h
  · exact (s.sample p rest).applyReset_afterReset.inv
  · exact h.sample p rest
  · exact (h.sample p rest).takeFault .illcmd

/-- Settles O13: power-on is a reset state. -/
theorem resetMeetsInvariant : Obligations.ResetMeetsInvariant := State.reset_afterReset.inv

/-- Settles O9: these are the four registers of R41. -/
theorem resetValues : Obligations.ResetValues := by
  obtain ⟨hlvalid, hfault, herr, hrvalid⟩ := State.reset_afterReset
  exact ⟨hlvalid, hfault, herr, hrvalid⟩

end Sys2Proof.Machine
end

section
/-! The masks of a compiled layout (R29 to R33), bit by bit. `LLO` and `LHI` are words with one bit in each field, and
what R33 says of both is said of all such words: `L.Holds p fun i => 2 ^ c i`, the bit of field `i` being bit `c i` of
that field. -/

namespace Sys2Proof.Machine

variable {L : Layout} {p : Word} {c : Nat → Nat}

theorem Layout.WF.LLO_holds (wf : L.WF) : L.Holds L.LLO fun _ => 2 ^ 0 :=
  ⟨wf.conf_LLO, fun _ hi => wf.fld_LLO hi⟩

theorem Layout.WF.LHI_holds (wf : L.WF) : L.Holds L.LHI fun i => 2 ^ (L.width i - 1) :=
  ⟨wf.conf_LHI, fun _ hi => wf.fld_LHI hi⟩

theorem Layout.and_not_LVM_of_conf (h : L.conf p = p) : p &&& ~~~L.LVM = 0 := by
  rw [← h, Layout.conf, BitVec.and_assoc]
  simp

theorem Layout.WF.LVM_eq (wf : L.WF) : L.LVM = BitVec.ofNat 64 (ones L.LSUM.toNat) := by
  rw [← wf.lvm_eq, BitVec.ofNat_toNat, BitVec.setWidth_eq]

theorem Layout.WF.fieldMask_disjoint (wf : L.WF) {i j : Nat} (hi : i < L.n) (hj : j < L.n) (hij : i ≠ j) :
    L.fieldMask i &&& L.fieldMask j = 0 := by
  apply BitVec.eq_of_getLsbD_eq
  intro b _
  simp only [BitVec.getLsbD_and, wf.getLsbD_fieldMask hi, wf.getLsbD_fieldMask hj, BitVec.ofNat_eq_ofNat,
    BitVec.getLsbD_zero, ← Bool.decide_and, decide_eq_false_iff_not]
  rintro ⟨⟨h1, h2⟩, h3, h4⟩
  exact hij (wf.field_unique hi hj h1 h2 h3 h4)

/-- What a field mask leaves of a word is the field in its place (R30). -/
theorem Layout.WF.and_fieldMask (wf : L.WF) (p : Word) {i : Nat} (hi : i < L.n) :
    p &&& L.fieldMask i = BitVec.ofNat 64 (L.fld p i <<< L.offset i) := by
  apply BitVec.eq_of_getLsbD_eq
  intro b hb
  rw [BitVec.getLsbD_and, wf.getLsbD_fieldMask hi, BitVec.getLsbD_ofNat, Nat.testBit_shiftLeft, L.testBit_fld]
  by_cases hle : L.offset i ≤ b
  · obtain ⟨k, rfl⟩ := Nat.exists_eq_add_of_le hle
    simp [hb, Bool.and_comm]
  · simp [hle]

/-- The one bit of a field, under the field's mask. -/
theorem Layout.WF.and_fieldMask_of_holds_two_pow (wf : L.WF) (h : L.Holds p fun i => 2 ^ c i) {i : Nat} (hi : i < L.n) :
    p &&& L.fieldMask i = BitVec.ofNat 64 (2 ^ (L.offset i + c i)) := by
  rw [wf.and_fieldMask p hi, h.2 i hi, Nat.shiftLeft_eq, ← Nat.pow_add, Nat.add_comm]

theorem Layout.lt_width_of_holds_two_pow (h : L.Holds p fun i => 2 ^ c i) {i : Nat} (hi : i < L.n) : c i < L.width i :=
  (Nat.pow_lt_pow_iff_right (by omega)).mp (h.2 i hi ▸ L.fld_lt p i)

/-- The bits of a word with one bit in each field. -/
theorem Layout.WF.getLsbD_iff_of_holds_two_pow (wf : L.WF) (h : L.Holds p fun i => 2 ^ c i) (b : Nat) :
    p.getLsbD b = true ↔ ∃ i < L.n, L.offset i + c i = b := by
  have hbit : ∀ i < L.n, ∀ k < L.width i, p.getLsbD (L.offset i + k) = decide (c i = k) := by
    intro i hi k hk
    have hfld : L.fld p i = 2 ^ c i := h.2 i hi
    rw [← Nat.testBit_two_pow, ← hfld, L.testBit_fld, decide_eq_true hk, Bool.true_and]
  constructor
  · intro hb
    have hlt : b < L.LSUM.toNat := by
      rw [← h.1, wf.getLsbD_conf] at hb
      simpa using (Bool.and_eq_true_iff.mp hb).2
    obtain ⟨i, hi, k, hk, rfl⟩ := wf.exists_field hlt
    rw [hbit i hi k hk, decide_eq_true_eq] at hb
    exact ⟨i, hi, by rw [hb]⟩
  · rintro ⟨i, hi, rfl⟩
    rw [hbit i hi (c i) (Layout.lt_width_of_holds_two_pow h hi), decide_eq_true rfl]

/-- A word with one bit in each field has `LN` bits: its set bits are a permutation of the fields' bits. -/
theorem Layout.WF.countP_of_holds_two_pow (wf : L.WF) (h : L.Holds p fun i => 2 ^ c i) :
    ((List.range 64).countP fun b => p.getLsbD b) = L.n := by
  have hnodup : ((List.range L.n).map fun i => L.offset i + c i).Nodup := by
    refine List.Nodup.map_on ?_ List.nodup_range
    intro i hi j hj heq
    have hi := List.mem_range.mp hi
    have hj := List.mem_range.mp hj
    have hci := Layout.lt_width_of_holds_two_pow h hi
    have hcj := Layout.lt_width_of_holds_two_pow h hj
    exact wf.field_unique hi hj (b := L.offset i + c i) (by omega) (by omega) (by omega) (by omega)
  have hperm : ((List.range 64).filter fun b => p.getLsbD b).Perm ((List.range L.n).map fun i => L.offset i + c i) := by
    refine (List.perm_ext_iff_of_nodup (List.nodup_range.filter _) hnodup).mpr fun b => ?_
    simp only [List.mem_filter, List.mem_map, List.mem_range, wf.getLsbD_iff_of_holds_two_pow h b]
    refine and_iff_right_of_imp ?_
    rintro ⟨i, hi, rfl⟩
    have := Layout.lt_width_of_holds_two_pow h hi
    have := wf.end_le_64 hi
    omega
  rw [List.countP_eq_length_filter, hperm.length_eq, List.length_map, List.length_range]

/-- The bit above a field's top is where the fields up to it end. -/
theorem Layout.WF.top_succ (wf : L.WF) {i : Nat} (hi : i < L.n) : L.top i + 1 = L.widthSum (i + 1) := by
  have := wf.width_pos i hi
  rw [wf.top_eq hi, wf.widthSum_succ_eq hi]
  omega

/-- The top bits are the low bits moved down by one, with the last field's added (R33): each field but the first begins
just above the one before it. -/
theorem Layout.WF.LHI_eq_shift_LLO (wf : L.WF) :
    L.LHI = ((L.LLO >>> 1) ||| BitVec.ofNat 64 (2 ^ (L.LSUM.toNat - 1))) &&& L.LVM := by
  have hn := wf.n_pos
  have hhigh (b : Nat) : L.LHI.getLsbD b = true ↔ ∃ i < L.n, L.widthSum (i + 1) = b + 1 := by
    rw [wf.getLsbD_iff_of_holds_two_pow wf.LHI_holds]
    refine exists_congr fun i => and_congr_right fun hi => ?_
    rw [← wf.top_eq hi, ← wf.top_succ hi, Nat.add_right_cancel_iff]
  have hlow (b : Nat) : L.LLO.getLsbD b = true ↔ ∃ j < L.n, L.widthSum j = b := by
    rw [wf.getLsbD_iff_of_holds_two_pow wf.LLO_holds]
    exact exists_congr fun j => and_congr_right fun hj => by rw [wf.offset_eq j hj, Nat.add_zero]
  apply BitVec.eq_of_getLsbD_eq
  intro b hb
  rw [Bool.eq_iff_iff, hhigh]
  simp only [BitVec.getLsbD_and, BitVec.getLsbD_or, BitVec.getLsbD_ushiftRight, wf.getLsbD_LVM, BitVec.getLsbD_ofNat,
    Nat.testBit_two_pow, Bool.and_eq_true, Bool.or_eq_true, decide_eq_true_eq, hlow]
  constructor
  · rintro ⟨i, hi, hib⟩
    have hle := L.widthSum_mono (show i + 1 ≤ L.n from hi)
    rw [← wf.lsum] at hle
    refine ⟨?_, by omega⟩
    by_cases hlast : i + 1 = L.n
    · rw [hlast, ← wf.lsum] at hib
      exact .inr ⟨hb, by omega⟩
    · exact .inl ⟨i + 1, by omega, by omega⟩
  · rintro ⟨⟨j, hj, hjb⟩ | ⟨-, hlast⟩, hlt⟩
    · cases j with
      | zero => rw [L.widthSum_zero] at hjb; omega
      | succ i => exact ⟨i, by omega, by omega⟩
    · refine ⟨L.n - 1, by omega, ?_⟩
      rw [Nat.sub_add_cancel hn, ← wf.lsum]
      omega

/-- Settles O20: under the invariant the layout registers hold a compiled layout, whose masks are as R33 says. -/
theorem layoutInvariants : Obligations.LayoutInvariants := by
  intro s hinv hvalid
  have wf := hinv.layout_wf hvalid
  refine ⟨fun i hi j hj hij => wf.fieldMask_disjoint hi hj hij, ?_, fun i hi => ?_, fun i hi => ?_,
    wf.countP_of_holds_two_pow wf.LLO_holds, wf.countP_of_holds_two_pow wf.LHI_holds, wf.LHI_eq_shift_LLO,
    wf.lsum_le_lc, wf.LVM_eq⟩
  · apply Layout.and_not_LVM_of_conf
    rw [Layout.conf_or, wf.conf_LLO, wf.conf_LHI]
  · exact wf.and_fieldMask_of_holds_two_pow wf.LLO_holds hi
  · rw [wf.top_eq hi]
    exact wf.and_fieldMask_of_holds_two_pow wf.LHI_holds hi

end Sys2Proof.Machine
end

section
/-! Commands other than `computeLayout` over the layout registers: they stop without a layout (R23, R192), and read
every layout register but `LC` (R26). -/

namespace Sys2Proof.Machine

variable {s : State}

/-- Other layout registers under which a command comes to the same result are left as they are by it. -/
theorem State.compute_congr_lay {f : Layout → Except ErrCode Word} {L : Layout} (h : f L = f s.lay) :
    State.compute { s with lay := L } f = { s.compute f with lay := L } := by
  obtain ⟨hv, heq⟩ | ⟨c, hv, hf, heq⟩ | ⟨r, hv, hf, heq⟩ := s.compute_cases f
  · rw [heq]
    exact State.compute_noLayout (s := { s with lay := L }) hv f
  · rw [heq]
    exact State.compute_error (s := { s with lay := L }) hv (h.trans hf)
  · rw [heq]
    exact State.compute_ok (s := { s with lay := L }) hv (h.trans hf)

theorem State.compute_lay (s : State) (f : Layout → Except ErrCode Word) : (s.compute f).lay = s.lay := by
  obtain ⟨-, heq⟩ | ⟨c, -, -, heq⟩ | ⟨r, -, -, heq⟩ := s.compute_cases f <;> rw [heq] <;> rfl

/-- The one result that reads `LC` is that of `layout_read CBITS` (R26). -/
theorem Instr.body_with_LC (p : Ports) (L : Layout) (c : BitVec 7) {i : Instr} (hcbits : i ≠ .layoutRead .cbits 0)
    (hwf : i.wellFormed = true) : Instr.body p i { L with LC := c } = Instr.body p i L := by
  cases i with
  | layoutRead sel k =>
    cases sel with
    | cbits =>
      have hk : k = 0 := by simpa [Instr.wellFormed, Selector.indexed] using hwf
      exact absurd (by rw [hk]) hcbits
    | _ => rfl
  | _ => rfl

/-- Settles O55: the command's body does not read `LC`, and no command but `computeLayout` writes it. -/
theorem containerDoesNotAffectResults : Obligations.ContainerDoesNotAffectResults := by
  intro i s t c hcompute hcbits hwf hexec
  cases (exec_compute hcompute s).symm.trans hexec
  rw [exec_compute hcompute, State.compute_lay]
  exact congrArg _ (State.compute_congr_lay (Instr.body_with_LC s.ports s.lay c hcbits hwf))

/-- Settles O16: the test for a layout comes before the command's own checks. -/
theorem noLayoutFault : Obligations.NoLayoutFault := by
  intro i s hcompute hvalid
  refine ⟨s.takeFault .nolayout, ?_, s.takeFault_faultEntry .nolayout⟩
  rw [exec_compute hcompute, State.compute_noLayout hvalid]

end Sys2Proof.Machine
end

section
/-! The command word the host places for the next step (R37, R57). -/

namespace Sys2Proof.Machine

theorem decode_of_decodeTableWord {w : Nat} {i : Instr} (h : decodeTableWord 32 w = some i) :
    decode (BitVec.ofNat 32 w) = .ok i := by
  have hw : BitVec.ofNat 32 (w % 2 ^ 32) = BitVec.ofNat 32 w := BitVec.eq_of_toNat_eq (by simp)
  rw [decodeTableWord, hw] at h
  cases hd : decode (BitVec.ofNat 32 w) with
  | error e => simp [hd] at h
  | ok j => simpa [hd] using h

/-- Settles O7: the placed word is presented without `RESET`, so an unfaulted unit runs what it decodes to. -/
theorem placedWordIsRunNext : Obligations.PlacedWordIsRunNext := by
  intro s w i hfault hword
  obtain ⟨p, rest, htake, hcmd, hreset⟩ := s.take_withFetchWord 32 w
  have hp : p.CMD = BitVec.ofNat 32 w := hcmd.trans (BitVec.eq_of_toNat_eq (by simp))
  have hdecode : decode p.CMD = .ok i := hp ▸ decode_of_decodeTableWord hword
  exact ⟨p, rest, step_of_take_command
    (htake.trans (State.takePresentation_of_decode_ok (s := s.sample p rest) hreset hfault hdecode)), hp⟩

end Sys2Proof.Machine
end

section
/-! A command presented twice (R53): its inputs are the ports and the layout registers alone, so that after a first
completion it comes to the same result. What `computeLayout` leaves unspecified (R83) is drawn anew. -/

namespace Sys2Proof.Machine

variable {s t : State}

theorem State.compute_ports (s : State) (f : Layout → Except ErrCode Word) : (s.compute f).ports = s.ports := by
  obtain ⟨-, heq⟩ | ⟨c, -, -, heq⟩ | ⟨r, -, -, heq⟩ := s.compute_cases f <;> rw [heq] <;> rfl

theorem State.finish_finish (s : State) (r r' : Word) : (s.finish r).finish r' = s.finish r' := rfl

/-- A computation that completes leaves what it reads, `LVALID` and the layout registers, as they were. -/
theorem State.compute_compute {f : Layout → Except ErrCode Word} (h : (s.compute f).FAULT = false) :
    (s.compute f).compute f = s.compute f := by
  obtain ⟨-, heq⟩ | ⟨c, -, -, heq⟩ | ⟨r, hv, hf, heq⟩ := s.compute_cases f
  · simp [heq] at h
  · simp [heq] at h
  · rw [heq, State.compute_ok (s := s.finish r) hv hf, State.finish_finish]

/-- A command other than `computeLayout` that completes is idempotent. -/
theorem exec_again_of_compute {i : Instr} (hcompute : Instr.isComputeLayout i = false) (hexec : exec i s = .next t)
    (ht : t.FAULT = false) : exec i t = .next t := by
  cases (exec_compute hcompute s).symm.trans hexec
  rw [exec_compute hcompute, State.compute_ports, State.compute_compute ht]

/-- An unfaulted `computeLayout` has passed its checks and compiled the widths. -/
theorem exec_computeLayout_of_no_fault {n : BitVec 7} {cw : ContainerChoice}
    (hexec : exec (.computeLayout n cw) s = .next t) (ht : t.FAULT = false) :
    checkWidths n.toNat (s.ports.widthList n.toNat) cw = none ∧
      t = s.setLayout (deriveLayout s.freeCount (s.ports.widthList n.toNat)
        (container (s.ports.widthList n.toNat).sum cw)) := by
  obtain ⟨c, -, heq⟩ | ⟨hchecks, heq⟩ := execComputeLayout_cases n cw s
  · cases heq.symm.trans hexec
    simp at ht
  · cases heq.symm.trans hexec
    exact ⟨hchecks, rfl⟩

theorem exec_computeLayout_of_checks {n : BitVec 7} {cw : ContainerChoice}
    (hchecks : checkWidths n.toNat (s.ports.widthList n.toNat) cw = none) :
    exec (.computeLayout n cw) s = .next (s.setLayout (deriveLayout s.freeCount (s.ports.widthList n.toNat)
      (container (s.ports.widthList n.toNat).sum cw))) := by
  obtain ⟨c, hfault, -⟩ | ⟨-, heq⟩ := execComputeLayout_cases n cw s
  · simp [hchecks] at hfault
  · exact heq

/-- `computeLayout` again, on the same widths: the layout registers and the free values they are drawn from change, and
nothing else. -/
theorem exec_computeLayout_setLayout {n : BitVec 7} {cw : ContainerChoice} (L : Layout)
    (hchecks : checkWidths n.toNat (s.ports.widthList n.toNat) cw = none) :
    exec (.computeLayout n cw) (s.setLayout L) =
      .next { s.setLayout L with
        lay := deriveLayout (s.freeCount + 1) (s.ports.widthList n.toNat) (container (s.ports.widthList n.toNat).sum cw)
        freeCount := s.freeCount + 2 } :=
  exec_computeLayout_of_checks (s := s.setLayout L) hchecks

/-- The entries below `LN` are compiled from the widths: no free value shows in them (R83). -/
theorem deriveLayout_entries_eq {ws : List Nat} (hsum : ws.sum ≤ 64) (hpos : ∀ w ∈ ws, 1 ≤ w) (k k' C : Nat) {i : Nat}
    (hi : i < (deriveLayout k ws C).n) :
    (deriveLayout k' ws C).width i = (deriveLayout k ws C).width i ∧
      (deriveLayout k' ws C).offset i = (deriveLayout k ws C).offset i ∧
      (deriveLayout k' ws C).fieldMask i = (deriveLayout k ws C).fieldMask i := by
  rw [deriveLayout_n hsum hpos] at hi
  simp only [deriveLayout_width hsum hpos hi, deriveLayout_offset hsum hpos hi, deriveLayout_fieldMask hsum hpos hi,
    and_self]

/-- Settles O56: a command's second execution reads what its first one read, and `computeLayout` compiles the same
widths, with other free values in the entries at `LN` and above. -/
theorem repeatedCommandChangesNothing : Obligations.RepeatedCommandChangesNothing := by
  refine ⟨fun i s t hcompute _ hexec ht => exec_again_of_compute hcompute hexec ht, ?_⟩
  intro n cw s t _ hexec ht
  obtain ⟨hchecks, rfl⟩ := exec_computeLayout_of_no_fault hexec ht
  obtain ⟨-, hpos, hsum⟩ := accepted_widths ((checkWidths_none_iff s n cw).mp hchecks)
  exact ⟨_, _, exec_computeLayout_setLayout _ hchecks, rfl, rfl, rfl, rfl, rfl, rfl,
    fun i hi => deriveLayout_entries_eq hsum hpos _ _ _ hi⟩

end Sys2Proof.Machine
end

section
/-! The words of commands (R61 to R64), by their fields. -/

namespace Sys2Proof

/-- The operand that the command's word carries in `f1` (R63), 0 where it has none. -/
def Instr.f1 : Instr → BitVec 7
  | .computeLayout n _ => n
  | .layoutRead _ k => k
  | .unpackUnsigned k => k
  | .unpackSigned k => k
  | .slice first _ => first
  | _ => 0

/-- The operand that the command's word carries in `f2` (R63), 0 where it has none. -/
def Instr.f2 : Instr → BitVec 7
  | .layoutRead sel _ => sel.code
  | .slice _ last => last
  | _ => 0

/-- The container choice that the command's word carries in `cw` (R63), 0 where it has none. -/
def Instr.cw : Instr → BitVec 3
  | .computeLayout _ c => c.code
  | _ => 0

/-- `w` is the legal command word of `i` (R63, R64). -/
def Instr.HasWord (i : Instr) (w : CmdWord) : Prop := i.wellFormed = true ∧ encode i = w

theorem encode_eq_assembleWord (i : Instr) : encode i = assembleWord i.opcode i.f1 i.f2 i.cw := by
  cases i <;> rfl

variable {w : CmdWord} {i : Instr} {op : BitVec 8} {f1 f2 : BitVec 7} {cw : BitVec 3}

theorem assembleWord_eq_iff : assembleWord op f1 f2 cw = w ↔
    zeroField w = 0 ∧ opField w = op ∧ f1Field w = f1 ∧ f2Field w = f2 ∧ cwField w = cw := by
  constructor
  · rintro rfl
    simp
  · rintro ⟨hzero, rfl, rfl, rfl, rfl⟩
    exact assembleWord_fields w hzero

theorem encode_eq_iff : encode i = w ↔
    zeroField w = 0 ∧ opField w = i.opcode ∧ f1Field w = i.f1 ∧ f2Field w = i.f2 ∧ cwField w = i.cw := by
  rw [encode_eq_assembleWord, assembleWord_eq_iff]

/-! ### The codes of containers and selectors (R62, R88) -/

theorem containerChoiceOf?_code (c : ContainerChoice) : containerChoiceOf? c.code = some c := by
  cases c <;> rfl

theorem selectorOf?_code (sel : Selector) : selectorOf? sel.code = some sel := by
  cases sel <;> rfl

theorem code_of_containerChoiceOf? {c : ContainerChoice} (h : containerChoiceOf? cw = some c) : c.code = cw := by
  unfold containerChoiceOf? at h
  split_ifs at h <;> cases h <;> exact Eq.symm ‹_›

theorem code_of_selectorOf? {sel : Selector} (h : selectorOf? f2 = some sel) : sel.code = f2 := by
  unfold selectorOf? at h
  split_ifs at h <;> cases h <;> exact Eq.symm ‹_›

theorem containerChoiceOf?_none (h : containerChoiceOf? cw = none) : 4 < cw.toNat := by
  unfold containerChoiceOf? at h
  split_ifs at h
  bv_omega

theorem selectorOf?_none (h : selectorOf? f2 = none) : 8 < f2.toNat := by
  unfold selectorOf? at h
  split_ifs at h
  bv_omega

theorem ContainerChoice.code_toNat_le (c : ContainerChoice) : c.code.toNat ≤ 4 := by
  cases c <;> decide

theorem Selector.code_toNat_le (sel : Selector) : sel.code.toNat ≤ 8 := by
  cases sel <;> decide

/-- The selectors above 5 are the indexed ones (R87). -/
theorem Selector.indexed_iff (sel : Selector) : sel.indexed = true ↔ 5 < sel.code.toNat := by
  cases sel <;> decide

theorem exists_container_code (h : cw.toNat ≤ 4) : ∃ c : ContainerChoice, cw = c.code := by
  cases hc : containerChoiceOf? cw with
  | none => exact absurd h (Nat.not_le.mpr (containerChoiceOf?_none hc))
  | some c => exact ⟨c, (code_of_containerChoiceOf? hc).symm⟩

theorem exists_selector_code (h : f2.toNat ≤ 8) : ∃ sel : Selector, f2 = sel.code := by
  cases hs : selectorOf? f2 with
  | none => exact absurd h (Nat.not_le.mpr (selectorOf?_none hs))
  | some sel => exact ⟨sel, (code_of_selectorOf? hs).symm⟩

/-! ### The words of each row of R63 -/

theorem exists_computeLayout_hasWord_iff : (∃ n c, (Instr.computeLayout n c).HasWord w) ↔
    zeroField w = 0 ∧ opField w = 0x01 ∧ f2Field w = 0 ∧ (cwField w).toNat ≤ 4 := by
  constructor
  · rintro ⟨n, c, -, hword⟩
    obtain ⟨hzero, hop, -, hf2, hcw⟩ := encode_eq_iff.mp hword
    exact ⟨hzero, hop, hf2, hcw ▸ c.code_toNat_le⟩
  · rintro ⟨hzero, hop, hf2, hcw⟩
    obtain ⟨c, hc⟩ := exists_container_code hcw
    exact ⟨f1Field w, c, rfl, encode_eq_iff.mpr ⟨hzero, hop, rfl, hf2, hc⟩⟩

theorem layoutRead_wellFormed_iff (sel : Selector) (k : BitVec 7) :
    (Instr.layoutRead sel k).wellFormed = true ↔ 5 < sel.code.toNat ∨ k = 0 := by
  rw [← sel.indexed_iff]
  simp [Instr.wellFormed]

theorem exists_layoutRead_hasWord_iff : (∃ sel k, (Instr.layoutRead sel k).HasWord w) ↔
    zeroField w = 0 ∧ opField w = 0x02 ∧ cwField w = 0 ∧ (f2Field w).toNat ≤ 8 ∧
      (5 < (f2Field w).toNat ∨ f1Field w = 0) := by
  constructor
  · rintro ⟨sel, k, hwf, hword⟩
    obtain ⟨hzero, hop, hf1, hf2, hcw⟩ := encode_eq_iff.mp hword
    refine ⟨hzero, hop, hcw, hf2 ▸ sel.code_toNat_le, ?_⟩
    rw [hf1, hf2]
    exact (layoutRead_wellFormed_iff sel k).mp hwf
  · rintro ⟨hzero, hop, hcw, hf2, hindex⟩
    obtain ⟨sel, hsel⟩ := exists_selector_code hf2
    exact ⟨sel, f1Field w, (layoutRead_wellFormed_iff _ _).mpr (hsel ▸ hindex),
      encode_eq_iff.mpr ⟨hzero, hop, rfl, hsel, hcw⟩⟩

theorem unpackUnsigned_hasWord (k : BitVec 7) : (Instr.unpackUnsigned k).HasWord (assembleWord 0x11 k 0 0) :=
  ⟨rfl, rfl⟩

theorem unpackSigned_hasWord (k : BitVec 7) : (Instr.unpackSigned k).HasWord (assembleWord 0x12 k 0 0) :=
  ⟨rfl, rfl⟩

/-- The words of a command that uses `f1` alone. -/
theorem exists_indexed_hasWord_iff {mk : BitVec 7 → Instr} (hmk : ∀ k, (mk k).HasWord (assembleWord op k 0 0)) :
    (∃ k, (mk k).HasWord w) ↔ zeroField w = 0 ∧ opField w = op ∧ f2Field w = 0 ∧ cwField w = 0 := by
  constructor
  · rintro ⟨k, -, hword⟩
    obtain ⟨hzero, hop, -, hf2, hcw⟩ := assembleWord_eq_iff.mp ((hmk k).2.symm.trans hword)
    exact ⟨hzero, hop, hf2, hcw⟩
  · rintro ⟨hzero, hop, hf2, hcw⟩
    obtain ⟨hwf, hword⟩ := hmk (f1Field w)
    exact ⟨f1Field w, hwf, hword.trans (assembleWord_eq_iff.mpr ⟨hzero, hop, rfl, hf2, hcw⟩)⟩

theorem exists_slice_hasWord_iff : (∃ first last, (Instr.slice first last).HasWord w) ↔
    zeroField w = 0 ∧ opField w = 0x50 ∧ cwField w = 0 := by
  constructor
  · rintro ⟨first, last, -, hword⟩
    obtain ⟨hzero, hop, -, -, hcw⟩ := encode_eq_iff.mp hword
    exact ⟨hzero, hop, hcw⟩
  · rintro ⟨hzero, hop, hcw⟩
    exact ⟨f1Field w, f2Field w, rfl, encode_eq_iff.mpr ⟨hzero, hop, rfl, rfl, hcw⟩⟩

/-- The fourteen commands whose word has no operand field (R63). -/
def plainInstrs : List Instr :=
  [.pack, .equal, .addWrap, .subWrap, .addUnsignedSaturate, .subUnsignedSaturate, .addSignedSaturate,
   .subSignedSaturate, .minUnsigned, .maxUnsigned, .minSigned, .maxSigned, .shiftLeft, .shiftRightUnsigned]

theorem plain_operands (h : i ∈ plainInstrs) : i.wellFormed = true ∧ i.f1 = 0 ∧ i.f2 = 0 ∧ i.cw = 0 := by
  revert i
  decide

theorem plain_hasWord_iff (h : i ∈ plainInstrs) : i.HasWord w ↔
    zeroField w = 0 ∧ opField w = i.opcode ∧ f1Field w = 0 ∧ f2Field w = 0 ∧ cwField w = 0 := by
  obtain ⟨hwf, hf1, hf2, hcw⟩ := plain_operands h
  rw [Instr.HasWord, encode_eq_iff, hf1, hf2, hcw]
  exact and_iff_right hwf

theorem plainCommandOf?_eq_some_iff : plainCommandOf? op = some i ↔ i ∈ plainInstrs ∧ i.opcode = op := by
  constructor
  · intro h
    unfold plainCommandOf? at h
    iterate 14
      obtain ⟨hop, hi⟩ | ⟨-, h⟩ := ite_eq_iff.mp h
      · cases hi
        exact ⟨by decide, hop.symm⟩
    cases h
  · rintro ⟨h, rfl⟩
    revert i
    decide

end Sys2Proof
end

section
/-! The decoder inverts the encoder (R65): it accepts the legal words of commands and reads each as its command. -/

namespace Sys2Proof

variable {w : CmdWord} {i : Instr} {op : BitVec 8} {f1 f2 : BitVec 7} {cw : BitVec 3}

theorem decodeComputeLayout_hasWord (h : decodeComputeLayout f1 f2 cw = .ok i) :
    i.HasWord (assembleWord 0x01 f1 f2 cw) := by
  unfold decodeComputeLayout at h
  split_ifs at h with hf2
  split at h
  · cases h
  next c hc =>
    cases h
    rw [not_ne_iff.mp hf2, ← code_of_containerChoiceOf? hc]
    exact ⟨rfl, rfl⟩

theorem decodeLayoutRead_hasWord (h : decodeLayoutRead f1 f2 cw = .ok i) :
    i.HasWord (assembleWord 0x02 f1 f2 cw) := by
  unfold decodeLayoutRead at h
  split_ifs at h with hcw
  split at h
  · cases h
  next sel hsel =>
    split_ifs at h with hindex
    cases h
    rw [not_ne_iff.mp hcw, ← code_of_selectorOf? hsel]
    refine ⟨?_, rfl⟩
    by_contra hwf
    exact hindex (by simpa [Instr.wellFormed] using hwf)

theorem decodeIndexed_hasWord {mk : BitVec 7 → Instr} (hmk : ∀ k, (mk k).HasWord (assembleWord op k 0 0))
    (h : decodeIndexed mk f1 f2 cw = .ok i) : i.HasWord (assembleWord op f1 f2 cw) := by
  unfold decodeIndexed at h
  split_ifs at h with hf2 hcw
  cases h
  rw [not_ne_iff.mp hf2, not_ne_iff.mp hcw]
  exact hmk f1

theorem decodeSlice_hasWord (h : decodeSlice f1 f2 cw = .ok i) : i.HasWord (assembleWord 0x50 f1 f2 cw) := by
  unfold decodeSlice at h
  split_ifs at h with hcw
  cases h
  rw [not_ne_iff.mp hcw]
  exact ⟨rfl, rfl⟩

theorem decodePlain_hasWord (h : decodePlain op f1 f2 cw = .ok i) : i.HasWord (assembleWord op f1 f2 cw) := by
  unfold decodePlain at h
  split at h
  · cases h
  next j hj =>
    split_ifs at h with hf1 hf2 hcw
    cases h
    obtain ⟨hplain, rfl⟩ := plainCommandOf?_eq_some_iff.mp hj
    rw [not_ne_iff.mp hf1, not_ne_iff.mp hf2, not_ne_iff.mp hcw, plain_hasWord_iff hplain]
    simp

theorem decodeFields_hasWord (h : decodeFields op f1 f2 cw = .ok i) : i.HasWord (assembleWord op f1 f2 cw) := by
  unfold decodeFields at h
  split_ifs at h with h01 h02 h11 h12 h50
  · exact h01 ▸ decodeComputeLayout_hasWord h
  · exact h02 ▸ decodeLayoutRead_hasWord h
  · exact h11 ▸ decodeIndexed_hasWord unpackUnsigned_hasWord h
  · exact h12 ▸ decodeIndexed_hasWord unpackSigned_hasWord h
  · exact h50 ▸ decodeSlice_hasWord h
  · exact decodePlain_hasWord h

theorem hasWord_of_decode (h : decode w = .ok i) : i.HasWord w := by
  unfold decode at h
  split_ifs at h with hzero
  rw [← assembleWord_fields w (not_ne_iff.mp hzero)]
  exact decodeFields_hasWord h

theorem decode_assembleWord : decode (assembleWord op f1 f2 cw) = decodeFields op f1 f2 cw := by
  simp [decode]

theorem decodeComputeLayout_code (n : BitVec 7) (c : ContainerChoice) :
    decodeComputeLayout n 0 c.code = .ok (.computeLayout n c) := by
  simp [decodeComputeLayout, containerChoiceOf?_code]

theorem decodeLayoutRead_code {sel : Selector} {k : BitVec 7} (h : (Instr.layoutRead sel k).wellFormed = true) :
    decodeLayoutRead k sel.code 0 = .ok (.layoutRead sel k) := by
  have hindex : ¬ (sel.indexed = false ∧ k ≠ 0) := by
    simpa [Instr.wellFormed, or_iff_not_imp_left] using h
  simp only [decodeLayoutRead, selectorOf?_code]
  rw [if_neg (by decide), if_neg hindex]

theorem decode_encode (h : i.wellFormed = true) : decode (encode i) = .ok i := by
  rw [encode_eq_assembleWord, decode_assembleWord]
  cases i with
  | computeLayout n c => exact decodeComputeLayout_code n c
  | layoutRead sel k => exact decodeLayoutRead_code h
  | _ => rfl

/-- The decoder reads a word as a command exactly when it is that command's word. -/
theorem decode_eq_ok_iff : decode w = .ok i ↔ i.HasWord w := by
  refine ⟨hasWord_of_decode, ?_⟩
  rintro ⟨hwf, rfl⟩
  exact decode_encode hwf

/-- Settles O1: the decoder finds the command's opcode and operands in the fields of its word. -/
theorem decodeAfterEncode : Obligations.DecodeAfterEncode := fun _ hwf => decode_encode hwf

/-- Settles O2: each branch of the decoder that accepts has read every field of the command's word. -/
theorem encodeAfterDecode : Obligations.EncodeAfterDecode := fun _ _ h => hasWord_of_decode h

end Sys2Proof
end

section
/-! The rows of opcode_table.json (R65, last paragraph): a mask keeps the fields that its row fixes. -/

namespace Sys2Proof

variable {w m : CmdWord} {i : Instr} {op : BitVec 8} {f1 f2 : BitVec 7} {cw : BitVec 3}

/-- Mask and match, field by field. -/
theorem and_eq_assembleWord_iff : w &&& m = assembleWord op f1 f2 cw ↔
    zeroField w &&& zeroField m = 0 ∧ opField w &&& opField m = op ∧ f1Field w &&& f1Field m = f1 ∧
      f2Field w &&& f2Field m = f2 ∧ cwField w &&& cwField m = cw := by
  rw [eq_comm, assembleWord_eq_iff]
  simp only [zeroField, opField, f1Field, f2Field, cwField, BitVec.extractLsb'_and]

/-- A mask with all of the opcode and of the reserved bits fixes both, and of each other field what it has of it. -/
theorem and_mask_eq_opcode_iff (hzero : zeroField m = BitVec.allOnes 7) (hop : opField m = BitVec.allOnes 8) :
    w &&& m = assembleWord op 0 0 0 ↔ zeroField w = 0 ∧ opField w = op ∧
      f1Field w &&& f1Field m = 0 ∧ f2Field w &&& f2Field m = 0 ∧ cwField w &&& cwField m = 0 := by
  rw [and_eq_assembleWord_iff, hzero, hop, BitVec.and_allOnes, BitVec.and_allOnes]

/-- The mask of `computeLayout` leaves `f1` and `cw` free. -/
theorem and_mask_f2_iff : w &&& 0xFE3F80FF = assembleWord op 0 0 0 ↔
    zeroField w = 0 ∧ opField w = op ∧ f2Field w = 0 := by
  rw [and_mask_eq_opcode_iff rfl rfl, show f1Field 0xFE3F80FF = 0#7 from rfl,
    show f2Field 0xFE3F80FF = BitVec.allOnes 7 from rfl, show cwField 0xFE3F80FF = 0#3 from rfl, BitVec.and_allOnes]
  simp

/-- The mask of `layout_read` and of `slice` leaves `f1` and `f2` free. -/
theorem and_mask_cw_iff : w &&& 0xFFC000FF = assembleWord op 0 0 0 ↔
    zeroField w = 0 ∧ opField w = op ∧ cwField w = 0 := by
  rw [and_mask_eq_opcode_iff rfl rfl, show f1Field 0xFFC000FF = 0#7 from rfl, show f2Field 0xFFC000FF = 0#7 from rfl,
    show cwField 0xFFC000FF = BitVec.allOnes 3 from rfl, BitVec.and_allOnes]
  simp

/-- The mask of the two unpack commands leaves `f1` free. -/
theorem and_mask_f2_cw_iff : w &&& 0xFFFF80FF = assembleWord op 0 0 0 ↔
    zeroField w = 0 ∧ opField w = op ∧ f2Field w = 0 ∧ cwField w = 0 := by
  rw [and_mask_eq_opcode_iff rfl rfl, show f1Field 0xFFFF80FF = 0#7 from rfl,
    show f2Field 0xFFFF80FF = BitVec.allOnes 7 from rfl, show cwField 0xFFFF80FF = BitVec.allOnes 3 from rfl,
    BitVec.and_allOnes, BitVec.and_allOnes]
  simp

/-- The row of a command in opcode_table.json. -/
def Instr.row : Instr → OpRow
  | .computeLayout _ _ => ⟨"computeLayout", assembleWord 0x01 0 0 0, 0xFE3F80FF, .containerLegal⟩
  | .layoutRead _ _ => ⟨"layout_read", assembleWord 0x02 0 0 0, 0xFFC000FF, .selectorLegal⟩
  | .unpackUnsigned _ => ⟨"unpack_unsigned", assembleWord 0x11 0 0 0, 0xFFFF80FF, .always⟩
  | .unpackSigned _ => ⟨"unpack_signed", assembleWord 0x12 0 0 0, 0xFFFF80FF, .always⟩
  | .slice _ _ => ⟨"slice", assembleWord 0x50 0 0 0, 0xFFC000FF, .always⟩
  | i => ⟨i.mnemonic, encode i, 0xFFFFFFFF, .always⟩

theorem row_mnemonic (i : Instr) : i.row.mnemonic = i.mnemonic := by
  cases i <;> rfl

/-- One command of each row, in the order of opcode_table.json. -/
def rowInstrs : List Instr :=
  [.computeLayout 0 .auto, .layoutRead .n 0, .unpackUnsigned 0, .unpackSigned 0, .slice 0 0] ++ plainInstrs

theorem opcodeRows_eq_map : opcodeRows = rowInstrs.map Instr.row := by decide

theorem row_mem_opcodeRows (i : Instr) : i.row ∈ opcodeRows := by
  rw [opcodeRows_eq_map, List.mem_map]
  cases i with
  | computeLayout => exact ⟨.computeLayout 0 .auto, by decide, rfl⟩
  | layoutRead => exact ⟨.layoutRead .n 0, by decide, rfl⟩
  | unpackUnsigned => exact ⟨.unpackUnsigned 0, by decide, rfl⟩
  | unpackSigned => exact ⟨.unpackSigned 0, by decide, rfl⟩
  | slice => exact ⟨.slice 0 0, by decide, rfl⟩
  | _ => exact ⟨_, by decide, rfl⟩

theorem OpRow.accepts_iff {r : OpRow} :
    r.accepts w = true ↔ w &&& r.mask = r.value ∧ r.constraint.holds w = true := by
  simp [OpRow.accepts]

theorem computeLayout_row_accepts_iff (n : BitVec 7) (c : ContainerChoice) :
    (Instr.computeLayout n c).row.accepts w = true ↔ ∃ n c, (Instr.computeLayout n c).HasWord w := by
  rw [exists_computeLayout_hasWord_iff, OpRow.accepts_iff]
  simp only [Instr.row, and_mask_f2_iff, RowConstraint.holds, and_assoc, decide_eq_true_eq]

theorem layoutRead_row_accepts_iff (sel : Selector) (k : BitVec 7) :
    (Instr.layoutRead sel k).row.accepts w = true ↔ ∃ sel k, (Instr.layoutRead sel k).HasWord w := by
  rw [exists_layoutRead_hasWord_iff, OpRow.accepts_iff]
  simp only [Instr.row, and_mask_cw_iff, RowConstraint.holds, and_assoc, Bool.and_eq_true, Bool.or_eq_true,
    decide_eq_true_eq, beq_iff_eq]

theorem unpackUnsigned_row_accepts_iff (k : BitVec 7) :
    (Instr.unpackUnsigned k).row.accepts w = true ↔ ∃ k, (Instr.unpackUnsigned k).HasWord w := by
  rw [exists_indexed_hasWord_iff unpackUnsigned_hasWord, OpRow.accepts_iff]
  simp only [Instr.row, and_mask_f2_cw_iff, RowConstraint.holds, and_true]

theorem unpackSigned_row_accepts_iff (k : BitVec 7) :
    (Instr.unpackSigned k).row.accepts w = true ↔ ∃ k, (Instr.unpackSigned k).HasWord w := by
  rw [exists_indexed_hasWord_iff unpackSigned_hasWord, OpRow.accepts_iff]
  simp only [Instr.row, and_mask_f2_cw_iff, RowConstraint.holds, and_true]

theorem slice_row_accepts_iff (first last : BitVec 7) :
    (Instr.slice first last).row.accepts w = true ↔ ∃ first last, (Instr.slice first last).HasWord w := by
  rw [exists_slice_hasWord_iff, OpRow.accepts_iff]
  simp only [Instr.row, and_mask_cw_iff, RowConstraint.holds, and_true]

theorem plain_row_accepts_iff (h : i ∈ plainInstrs) : i.row.accepts w = true ↔ i.HasWord w := by
  have hrow : i.row = ⟨i.mnemonic, encode i, BitVec.allOnes 32, .always⟩ := by
    revert i
    decide
  rw [hrow, OpRow.accepts_iff, Instr.HasWord, BitVec.and_allOnes, eq_comm, and_comm]
  exact and_congr_left fun _ => iff_of_true rfl (plain_operands h).1

theorem row_accepts_of_hasWord (h : i.HasWord w) : i.row.accepts w = true := by
  cases i with
  | computeLayout n c => exact (computeLayout_row_accepts_iff n c).mpr ⟨n, c, h⟩
  | layoutRead sel k => exact (layoutRead_row_accepts_iff sel k).mpr ⟨sel, k, h⟩
  | unpackUnsigned k => exact (unpackUnsigned_row_accepts_iff k).mpr ⟨k, h⟩
  | unpackSigned k => exact (unpackSigned_row_accepts_iff k).mpr ⟨k, h⟩
  | slice first last => exact (slice_row_accepts_iff first last).mpr ⟨first, last, h⟩
  | _ => exact (plain_row_accepts_iff (by decide)).mpr h

/-- A word that a command's row accepts is the word of a command with that row, with the same operands or others. -/
theorem exists_hasWord_of_row_accepts (h : i.row.accepts w = true) : ∃ j : Instr, j.HasWord w ∧ j.row = i.row := by
  cases i with
  | computeLayout n c =>
    obtain ⟨n', c', hword⟩ := (computeLayout_row_accepts_iff n c).mp h
    exact ⟨.computeLayout n' c', hword, rfl⟩
  | layoutRead sel k =>
    obtain ⟨sel', k', hword⟩ := (layoutRead_row_accepts_iff sel k).mp h
    exact ⟨.layoutRead sel' k', hword, rfl⟩
  | unpackUnsigned k =>
    obtain ⟨k', hword⟩ := (unpackUnsigned_row_accepts_iff k).mp h
    exact ⟨.unpackUnsigned k', hword, rfl⟩
  | unpackSigned k =>
    obtain ⟨k', hword⟩ := (unpackSigned_row_accepts_iff k).mp h
    exact ⟨.unpackSigned k', hword, rfl⟩
  | slice first last =>
    obtain ⟨first', last', hword⟩ := (slice_row_accepts_iff first last).mp h
    exact ⟨.slice first' last', hword, rfl⟩
  | _ => exact ⟨_, (plain_row_accepts_iff (by decide)).mp h, rfl⟩

/-- Settles O3: a row accepts the words of its commands and no others, and those are what the decoder accepts. -/
theorem decoderAgreesWithOpcodeTable : Obligations.DecoderAgreesWithOpcodeTable := by
  intro w
  constructor
  · intro i hdecode
    exact ⟨i.row, row_mem_opcodeRows i, row_accepts_of_hasWord (decode_eq_ok_iff.mp hdecode), row_mnemonic i⟩
  · intro r hr haccepts
    rw [opcodeRows_eq_map, List.mem_map] at hr
    obtain ⟨i, -, rfl⟩ := hr
    obtain ⟨j, hword, hrow⟩ := exists_hasWord_of_row_accepts haccepts
    exact ⟨j, decode_eq_ok_iff.mpr hword, by rw [← hrow, row_mnemonic]⟩

end Sys2Proof
end

section
/-! The illegal words of R64 are the words of no command, and an unfaulted unit enters `E_ILLCMD` on each. -/

namespace Sys2Proof

variable {w : CmdWord} {i : Instr}

/-- The family `EncodedFields` over all nineteen commands. -/
theorem encodedFields : ∀ i : Instr, Laws.EncodedFields.Statement i
  | .computeLayout n cw => Laws.EncodedFields.computeLayout n cw
  | .layoutRead sel k => Laws.EncodedFields.layoutRead sel k
  | .pack => Laws.EncodedFields.pack
  | .unpackUnsigned k => Laws.EncodedFields.unpackUnsigned k
  | .unpackSigned k => Laws.EncodedFields.unpackSigned k
  | .equal => Laws.EncodedFields.equal
  | .addWrap => Laws.EncodedFields.addWrap
  | .subWrap => Laws.EncodedFields.subWrap
  | .addUnsignedSaturate => Laws.EncodedFields.addUnsignedSaturate
  | .subUnsignedSaturate => Laws.EncodedFields.subUnsignedSaturate
  | .addSignedSaturate => Laws.EncodedFields.addSignedSaturate
  | .subSignedSaturate => Laws.EncodedFields.subSignedSaturate
  | .minUnsigned => Laws.EncodedFields.minUnsigned
  | .maxUnsigned => Laws.EncodedFields.maxUnsigned
  | .minSigned => Laws.EncodedFields.minSigned
  | .maxSigned => Laws.EncodedFields.maxSigned
  | .slice first last => Laws.EncodedFields.slice first last
  | .shiftLeft => Laws.EncodedFields.shiftLeft
  | .shiftRightUnsigned => Laws.EncodedFields.shiftRightUnsigned

theorem eq_computeLayout_of_opcode (h : i.opcode = 0x01) : ∃ n c, i = .computeLayout n c := by
  cases i with
  | computeLayout n c => exact ⟨n, c, rfl⟩
  | _ => simp [Instr.opcode] at h

theorem eq_layoutRead_of_opcode (h : i.opcode = 0x02) : ∃ sel k, i = .layoutRead sel k := by
  cases i with
  | layoutRead sel k => exact ⟨sel, k, rfl⟩
  | _ => simp [Instr.opcode] at h

theorem not_illegalWord_of_hasWord (h : i.HasWord w) : ¬ IllegalWord w := by
  obtain ⟨hzero, hop, hmem, hf1, hf2, hcw⟩ := encodedFields i
  rw [← hop, h.2] at hmem hf1 hf2 hcw
  rw [h.2] at hzero hop
  rintro (hne | hne | ⟨hunused, hne⟩ | ⟨hunused, hne⟩ | ⟨hunused, hne⟩ | ⟨hop1, hge⟩ | ⟨hop2, hgt⟩ |
    ⟨hop2, hle, hne⟩)
  · exact hne hzero
  · exact hne hmem
  · exact hne (hf1 hunused)
  · exact hne (hf2 hunused)
  · exact hne (hcw hunused)
  · obtain ⟨n, c, rfl⟩ := eq_computeLayout_of_opcode (hop.symm.trans hop1)
    obtain ⟨-, -, -, hle⟩ := exists_computeLayout_hasWord_iff.mp ⟨n, c, h⟩
    omega
  · obtain ⟨sel, k, rfl⟩ := eq_layoutRead_of_opcode (hop.symm.trans hop2)
    obtain ⟨-, -, -, hle, -⟩ := exists_layoutRead_hasWord_iff.mp ⟨sel, k, h⟩
    omega
  · obtain ⟨sel, k, rfl⟩ := eq_layoutRead_of_opcode (hop.symm.trans hop2)
    obtain ⟨-, -, -, -, hindex⟩ := exists_layoutRead_hasWord_iff.mp ⟨sel, k, h⟩
    exact hindex.elim (Nat.not_lt.mpr hle) hne

theorem opcode_cases {op : BitVec 8} (h : op ∈ opcodes) :
    op = 0x01 ∨ op = 0x02 ∨ op = 0x11 ∨ op = 0x12 ∨ op = 0x50 ∨ ∃ i ∈ plainInstrs, i.opcode = op := by
  revert op
  decide

/-- A plain command's opcode is on none of R64's lists of those that use `f1`, `f2` or `cw`. -/
theorem plain_opcode_unused (h : i ∈ plainInstrs) :
    i.opcode ∉ opcodesWithF1 ∧ i.opcode ∉ opcodesWithF2 ∧ i.opcode ≠ 0x01 := by
  revert i
  decide

theorem exists_hasWord_of_not_illegalWord (h : ¬ IllegalWord w) : ∃ i : Instr, i.HasWord w := by
  simp only [IllegalWord, not_or, not_and, ne_eq, not_not, Nat.not_le, Nat.not_lt] at h
  obtain ⟨hzero, hmem, hf1, hf2, hcw, hcontainer, hselector, hindex⟩ := h
  obtain hop | hop | hop | hop | hop | ⟨i, hi, hop⟩ := opcode_cases hmem
  · obtain ⟨n, c, hword⟩ := exists_computeLayout_hasWord_iff.mpr
      ⟨hzero, hop, hf2 (hop ▸ by decide), Nat.le_of_lt_succ (hcontainer hop)⟩
    exact ⟨_, hword⟩
  · obtain ⟨sel, k, hword⟩ := exists_layoutRead_hasWord_iff.mpr
      ⟨hzero, hop, hcw (hop ▸ by decide), hselector hop,
        (Nat.lt_or_ge 5 (f2Field w).toNat).imp_right (hindex hop)⟩
    exact ⟨_, hword⟩
  · obtain ⟨k, hword⟩ := (exists_indexed_hasWord_iff unpackUnsigned_hasWord).mpr
      ⟨hzero, hop, hf2 (hop ▸ by decide), hcw (hop ▸ by decide)⟩
    exact ⟨_, hword⟩
  · obtain ⟨k, hword⟩ := (exists_indexed_hasWord_iff unpackSigned_hasWord).mpr
      ⟨hzero, hop, hf2 (hop ▸ by decide), hcw (hop ▸ by decide)⟩
    exact ⟨_, hword⟩
  · obtain ⟨first, last, hword⟩ := exists_slice_hasWord_iff.mpr ⟨hzero, hop, hcw (hop ▸ by decide)⟩
    exact ⟨_, hword⟩
  · obtain ⟨hf1', hf2', hcw'⟩ := plain_opcode_unused hi
    rw [hop] at hf1' hf2' hcw'
    exact ⟨i, (plain_hasWord_iff hi).mpr ⟨hzero, hop.symm, hf1 hf1', hf2 hf2', hcw hcw'⟩⟩

/-- R64's conditions leave out the words of commands and no others. -/
theorem illegalWord_iff : IllegalWord w ↔ ¬ ∃ i : Instr, i.HasWord w := by
  constructor
  · rintro hillegal ⟨i, hword⟩
    exact not_illegalWord_of_hasWord hword hillegal
  · intro hnone
    by_contra hlegal
    exact hnone (exists_hasWord_of_not_illegalWord hlegal)

theorem exists_decode_error_iff : (∃ e, decode w = .error e) ↔ IllegalWord w := by
  rw [illegalWord_iff]
  simp only [← decode_eq_ok_iff]
  cases decode w <;> simp

end Sys2Proof

namespace Sys2Proof.Machine

variable {s : State} {p : Ports} {rest : List Ports}

theorem step_of_decode_error {e : Illegal} (hpending : s.pending = p :: rest) (hreset : p.RESET = false)
    (hfault : s.FAULT = false) (hdecode : decode p.CMD = .error e) :
    step s = .next ((s.sample p rest).takeFault .illcmd) := by
  simp [step, State.take_of_pending_cons hpending, State.takePresentation, hreset, hfault, hdecode]

/-- Settles O4: the decoder accepts the words of commands alone, and on any other word the step is a fault entry. -/
theorem illegalWordsRaiseIllcmd : Obligations.IllegalWordsRaiseIllcmd := by
  refine ⟨fun w => exists_decode_error_iff, ?_⟩
  intro s p rest hpending hreset hfault hillegal
  obtain ⟨e, hdecode⟩ := exists_decode_error_iff.mpr hillegal
  exact ⟨_, step_of_decode_error hpending hreset hfault hdecode, State.takeFault_faultEntry _ _⟩

end Sys2Proof.Machine
end

section
/-! What a command reads (R66): of the ports the data inputs of its row, and of the registers `LVALID` and the layout,
never the result registers (R35). -/

namespace Sys2Proof.Machine

variable {s : State} {p q : Ports}

/-- What `compute` answers does not depend on the ports or on the result registers, and it leaves the ports as they
are. -/
theorem State.compute_congr_inputs {f g : Layout → Except ErrCode Word} (h : g s.lay = f s.lay) (q : Ports) (r : Word)
    (v : Bool) :
    State.compute { s with ports := q, RES := r, RVALID := v } g = { s.compute f with ports := q } := by
  obtain ⟨hv, heq⟩ | ⟨c, hv, hf, heq⟩ | ⟨r', hv, hf, heq⟩ := s.compute_cases f
  · rw [heq]
    exact State.compute_noLayout (s := { s with ports := q, RES := r, RVALID := v }) hv g
  · rw [heq]
    exact State.compute_error (s := { s with ports := q, RES := r, RVALID := v }) hv (h.trans hf)
  · rw [heq]
    exact State.compute_ok (s := { s with ports := q, RES := r, RVALID := v }) hv (h.trans hf)

/-- `pack` reads the lanes below `LN` (R66). -/
theorem Layout.packLanes_congr {L : Layout} (h : ∀ i < L.n, p.lane i = q.lane i) : L.packLanes p = L.packLanes q :=
  List.foldl_ext _ _ _ fun _ i hi => by rw [h i (List.mem_range.mp hi)]

/-- `computeLayout` reads the lanes below its count (R66). -/
theorem Ports.widthList_congr {n : Nat} (h : ∀ i < n, p.lane i = q.lane i) : p.widthList n = q.widthList n :=
  List.map_congr_left fun i hi => by rw [h i (List.mem_range.mp hi)]

theorem Instr.body_congr_inputs {i : Instr} (hcompute : Instr.isComputeLayout i = false)
    (h : Instr.SameInputs s p q i) : Instr.body q i s.lay = Instr.body p i s.lay := by
  cases i with
  | computeLayout => simp [Instr.isComputeLayout] at hcompute
  | layoutRead => rfl
  | pack => exact congrArg Except.ok (Layout.packLanes_congr h).symm
  | unpackUnsigned k | unpackSigned k | slice first last =>
    have hA : p.A = q.A := h
    simp only [Instr.body, hA]
  | _ =>
    obtain ⟨hA, hB⟩ := h
    simp only [Instr.body, hA, hB]

theorem exec_computeLayout_of_check_fails {n : BitVec 7} {cw : ContainerChoice} {c : ErrCode}
    (hchecks : checkWidths n.toNat (s.ports.widthList n.toNat) cw = some c) :
    exec (.computeLayout n cw) s = .next (s.takeFault c) := by
  simp only [exec, execComputeLayout, hchecks]

theorem exec_computeLayout_congr_inputs {n : BitVec 7} {cw : ContainerChoice} {t : State}
    (h : Instr.SameInputs s s.ports q (.computeLayout n cw)) (hexec : exec (.computeLayout n cw) s = .next t)
    (r : Word) (v : Bool) :
    exec (.computeLayout n cw) { s with ports := q, RES := r, RVALID := v } = .next { t with ports := q } := by
  have hwidths : s.ports.widthList n.toNat = q.widthList n.toNat := Ports.widthList_congr h
  have hcases := execComputeLayout_cases n cw s
  rw [hwidths] at hcases
  obtain ⟨c, hchecks, heq⟩ | ⟨hchecks, heq⟩ := hcases
  · cases heq.symm.trans hexec
    exact exec_computeLayout_of_check_fails (s := { s with ports := q, RES := r, RVALID := v }) hchecks
  · cases heq.symm.trans hexec
    exact exec_computeLayout_of_checks (s := { s with ports := q, RES := r, RVALID := v }) hchecks

/-- Settles O54: each command is a function of its inputs, `LVALID` and the layout registers, and writes the result
registers whatever they held. -/
theorem unreadInputsHaveNoEffect : Obligations.UnreadInputsHaveNoEffect := by
  intro i s t q r v hsame hexec
  cases hcompute : Instr.isComputeLayout i with
  | false =>
    cases (exec_compute hcompute s).symm.trans hexec
    rw [exec_compute hcompute]
    exact congrArg _ (State.compute_congr_inputs (Instr.body_congr_inputs hcompute hsame) q r v)
  | true =>
    cases i with
    | computeLayout n cw => exact exec_computeLayout_congr_inputs hsame hexec r v
    | _ => simp [Instr.isComputeLayout] at hcompute

end Sys2Proof.Machine
end

section
/-! Words of the spec's own examples (R80, R87, R101, R165): each is the word of its command, and the decoder inverts the
encoder. -/

namespace Sys2Proof

/-- Settles O5: the words are those of the commands they stand for. -/
theorem specWordsDecode : Obligations.SpecWordsDecode := by
  refine ⟨?_, ?_, ?_, ?_, ?_, ?_, ?_, ?_, ?_, ?_⟩
  all_goals exact decode_eq_ok_iff.mpr ⟨rfl, rfl⟩

end Sys2Proof
end

section
/-! The checks of `computeLayout` (R82): each test of `checkWidths`, with the code it raises where those before it
pass. -/

namespace Sys2Proof.Machine

variable {s : State} {n : BitVec 7} {cw : ContainerChoice}

theorem checkWidths_zero (ws : List Nat) (cw : ContainerChoice) : checkWidths 0 ws cw = some .empty := rfl

section
variable {m : Nat} {ws : List Nat}

theorem checkWidths_of_gt (h : 64 < m) : checkWidths m ws cw = some .toowide := by
  rw [checkWidths, if_neg (by omega), if_pos h]

theorem checkWidths_of_zero_mem (hpos : 0 < m) (hle : m ≤ 64) (hmem : 0 ∈ ws) :
    checkWidths m ws cw = some .zerow := by
  rw [checkWidths, if_neg (by omega), if_neg (by omega), if_pos hmem]

theorem checkWidths_of_container_lt (hpos : 0 < m) (hle : m ≤ 64) (hmem : 0 ∉ ws)
    (hlt : container ws.sum cw < ws.sum) : checkWidths m ws cw = some .toowide := by
  rw [checkWidths, if_neg (by omega), if_neg (by omega), if_neg hmem, if_pos hlt]

end

/-- R82's two tests of the sum are one test against the chosen container. -/
theorem container_lt_iff (S : Nat) (cw : ContainerChoice) : container S cw < S ↔
    (cw = .auto ∧ 64 < S) ∨ (cw = .c8 ∧ 8 < S) ∨ (cw = .c16 ∧ 16 < S) ∨ (cw = .c32 ∧ 32 < S) ∨
      (cw = .c64 ∧ 64 < S) := by
  cases cw with
  | auto =>
    simp only [container, reduceCtorEq, true_and, false_and, or_false]
    split_ifs <;> omega
  | _ => simp [container]

theorem Ports.zero_mem_widthList_iff (p : Ports) (n : Nat) : 0 ∈ p.widthList n ↔ ∃ i < n, p.lane i = 0 := by
  simp [Ports.widthList, BitVec.toNat_eq]

theorem exec_computeLayout_faultEntry {c : ErrCode}
    (h : checkWidths n.toNat (s.ports.widthList n.toNat) cw = some c) :
    ∃ t, exec (.computeLayout n cw) s = .next t ∧ s.FaultEntry c t :=
  ⟨_, exec_computeLayout_of_check_fails h, s.takeFault_faultEntry c⟩

/-- Widths that pass the earlier checks and do not fit the container. -/
theorem exec_computeLayout_tooWide (hpos : 0 < n.toNat) (hle : n.toNat ≤ 64)
    (hwidths : ∀ i < n.toNat, s.ports.lane i ≠ 0)
    (hlt : container (s.ports.widthList n.toNat).sum cw < (s.ports.widthList n.toNat).sum) :
    ∃ t, exec (.computeLayout n cw) s = .next t ∧ s.FaultEntry .toowide t := by
  have hmem : 0 ∉ s.ports.widthList n.toNat := by
    rw [Ports.zero_mem_widthList_iff]
    rintro ⟨i, hi, hzero⟩
    exact hwidths i hi hzero
  exact exec_computeLayout_faultEntry (checkWidths_of_container_lt hpos hle hmem hlt)

/-- Settles O17: the state does not enter into the checks but for the lanes, and each failing check is a fault entry. -/
theorem computeLayoutFaultOrder : Obligations.ComputeLayoutFaultOrder := by
  intro s n cw
  refine ⟨?_, fun hgt => exec_computeLayout_faultEntry (checkWidths_of_gt hgt), ?_, ?_⟩
  · rintro rfl
    exact exec_computeLayout_faultEntry (checkWidths_zero _ cw)
  · rintro hle ⟨i, hi, hzero⟩
    exact exec_computeLayout_faultEntry (checkWidths_of_zero_mem (Nat.zero_lt_of_lt hi) hle
      ((Ports.zero_mem_widthList_iff _ _).mpr ⟨i, hi, hzero⟩))
  · intro hne hle hwidths hsum
    have hpos : 0 < n.toNat := by bv_omega
    exact exec_computeLayout_tooWide hpos hle hwidths ((container_lt_iff _ cw).mpr hsum)

end Sys2Proof.Machine
end

section
/-! What an accepted `computeLayout` leaves in the layout registers (R81, R83), as the widths on `VIN` have it. -/

namespace Sys2Proof.Machine

variable {s : State} {n : BitVec 7} {cw : ContainerChoice}

theorem exec_computeLayout_of_accepted (h : Instr.Accepted s (.computeLayout n cw)) :
    exec (.computeLayout n cw) s = .next (s.setLayout (deriveLayout s.freeCount (s.ports.widthList n.toNat)
      (container (s.ports.widthList n.toNat).sum cw))) :=
  exec_computeLayout_of_checks ((checkWidths_none_iff s n cw).mpr h)

theorem Ports.take_widthList (p : Ports) {i n : Nat} (h : i ≤ n) : (p.widthList n).take i = p.widthList i := by
  rw [Ports.widthList, ← List.map_take, List.take_range, Nat.min_eq_left h, Ports.widthList]

theorem Layout.WF.fieldMask_toNat {L : Layout} (wf : L.WF) {i : Nat} (hi : i < L.n) :
    (L.fieldMask i).toNat = (2 ^ L.width i - 1) * 2 ^ L.offset i := by
  have hlt : (2 ^ L.width i - 1) * 2 ^ L.offset i < 2 ^ 64 :=
    calc (2 ^ L.width i - 1) * 2 ^ L.offset i
        < 2 ^ L.width i * 2 ^ L.offset i :=
          Nat.mul_lt_mul_of_pos_right (Nat.sub_lt (Nat.two_pow_pos _) Nat.one_pos) (Nat.two_pow_pos _)
      _ = 2 ^ (L.offset i + L.width i) := by rw [← Nat.pow_add, Nat.add_comm]
      _ ≤ 2 ^ 64 := Nat.pow_le_pow_right (by omega) (wf.end_le_64 hi)
  rw [wf.mask_eq i hi, Nat.shiftLeft_eq, ones, BitVec.toNat_ofNat, Nat.mod_eq_of_lt hlt]

theorem deriveLayout_lc (k : Nat) (ws : List Nat) {C : Nat} (hC : C ≤ 64) :
    (deriveLayout k ws C).LC.toNat = C := by
  simp only [deriveLayout, BitVec.toNat_ofNat]
  omega

/-- Settles O18: the layout is the one `deriveLayout` compiles, which is well formed, and its widths are the lanes. -/
theorem computeLayoutCompilesWidths : Obligations.ComputeLayoutCompilesWidths := by
  intro s n cw haccepted
  obtain ⟨-, hpos, hsum⟩ := accepted_widths haccepted
  have wf := accepted_layout_wf s.freeCount haccepted
  have hlen := s.ports.widthList_length n.toNat
  have hn {C : Nat} : (deriveLayout s.freeCount (s.ports.widthList n.toNat) C).n = n.toNat :=
    (deriveLayout_n hsum hpos).trans hlen
  refine ⟨_, _, exec_computeLayout_of_accepted haccepted, hn, fun i hi => ?_, fun i hi => ?_,
    fun i hi => wf.fieldMask_toNat (hn.symm ▸ hi), deriveLayout_lsum hsum, ?_, ?_, ?_,
    wf.lvm_eq⟩
  · rw [deriveLayout_width hsum hpos (hlen.symm ▸ hi), Ports.widthList_getElem]
  · rw [deriveLayout_offset hsum hpos (hlen.symm ▸ hi), Ports.take_widthList _ hi.le, Ports.widthList]
  · rw [deriveLayout_lsum hsum, deriveLayout_lc _ _ (container_le _ _)]
  · rw [wf.llo_eq, hn]
  · rw [wf.lhi_eq, hn]
    rfl

theorem le_container_auto {S : Nat} (h : S ≤ 64) : S ≤ container S .auto := by
  simp only [container]
  split_ifs <;> omega

/-- The automatic container is the least that fits (R81). -/
theorem container_auto_le {S C : Nat} (hC : C ∈ Config.containers) (h : S ≤ C) : container S .auto ≤ C := by
  simp only [Config.containers, List.mem_cons, List.not_mem_nil, or_false] at hC
  simp only [container]
  split_ifs <;> omega

/-- Settles O19: the container enters `deriveLayout` in `LC` alone. -/
theorem containerSelection : Obligations.ContainerSelection := by
  refine ⟨fun S _ hle => ⟨container_mem S .auto, le_container_auto hle, fun C => container_auto_le⟩,
    fun S => ⟨rfl, rfl, rfl, rfl⟩, ?_, ?_⟩
  · intro s n cw cw' h h'
    obtain ⟨-, -, hsum⟩ := accepted_widths h
    refine ⟨_, _, exec_computeLayout_of_accepted h, exec_computeLayout_of_accepted h', ?_, rfl⟩
    rw [State.setLayout_lay, deriveLayout_lsum hsum, deriveLayout_lc _ _ (container_le _ _)]
  · intro s n cw hpos hle hwidths hlt
    refine exec_computeLayout_tooWide hpos hle (fun i hi hzero => ?_) hlt
    have := hwidths i hi
    simp [hzero] at this

end Sys2Proof.Machine
end

section
/-! What changes the layout registers (R22, R84, R86): of all commands, a `computeLayout` whose checks pass. -/

namespace Sys2Proof.Machine

variable {s t : State} {n : BitVec 7} {cw : ContainerChoice}

theorem State.compute_LVALID (s : State) (f : Layout → Except ErrCode Word) : (s.compute f).LVALID = s.LVALID := by
  obtain ⟨-, heq⟩ | ⟨c, -, -, heq⟩ | ⟨r, -, -, heq⟩ := s.compute_cases f <;> rw [heq] <;> rfl

theorem exec_keeps_layout {i : Instr} (hcompute : Instr.isComputeLayout i = false) (hexec : exec i s = .next t) :
    t.LVALID = s.LVALID ∧ t.lay = s.lay := by
  cases (exec_compute hcompute s).symm.trans hexec
  exact ⟨s.compute_LVALID _, s.compute_lay _⟩

/-- `computeLayout` is accepted and compiles a layout, or faults and leaves the one there is (R86). -/
theorem exec_computeLayout_layout (hexec : exec (.computeLayout n cw) s = .next t) :
    (Instr.Accepted s (.computeLayout n cw) ∧ t.FAULT = s.FAULT ∧ t.LVALID = true ∧ t.lay.WF) ∨
      (t.FAULT = true ∧ t.LVALID = s.LVALID ∧ t.lay = s.lay) := by
  obtain ⟨c, -, heq⟩ | ⟨hchecks, heq⟩ := execComputeLayout_cases n cw s
  · cases heq.symm.trans hexec
    exact .inr ⟨rfl, rfl, rfl⟩
  · cases heq.symm.trans hexec
    have haccepted := (checkWidths_none_iff s n cw).mp hchecks
    exact .inl ⟨haccepted, rfl, rfl, accepted_layout_wf _ haccepted⟩

theorem exec_changes_layout {i : Instr} (hexec : exec i s = .next t) (hchange : t.LVALID ≠ s.LVALID ∨ t.lay ≠ s.lay) :
    ∃ n cw, i = .computeLayout n cw ∧ Instr.Accepted s (.computeLayout n cw) := by
  have hkept : ¬ (t.LVALID = s.LVALID ∧ t.lay = s.lay) := not_and_or.mpr hchange
  cases i with
  | computeLayout n cw =>
    obtain ⟨haccepted, -⟩ | ⟨-, hkeeps⟩ := exec_computeLayout_layout hexec
    · exact ⟨n, cw, rfl, haccepted⟩
    · exact absurd hkeeps hkept
  | _ => exact absurd (exec_keeps_layout rfl hexec) hkept

/-- Settles O21: `RESET` apart, the events of a step that execute no command leave the layout registers alone. -/
theorem layoutStaysUntilReplaced : Obligations.LayoutStaysUntilReplaced := by
  refine ⟨?_, fun i s t => exec_keeps_layout, ?_⟩
  · intro s t n cw hfault hexec
    exact (exec_computeLayout_layout hexec).imp_left fun ⟨_, hkeeps, hcompiled⟩ => ⟨hkeeps.trans hfault, hcompiled⟩
  · intro s t hstep hchange
    obtain ⟨-, heq⟩ | ⟨p, rest, hpending, hreset, -⟩ | ⟨p, rest, -, -, -, heq⟩ | ⟨p, rest, e, -, -, -, -, heq⟩ |
      ⟨p, rest, i, hpending, -, -, hdecode, heq⟩ := step_cases s
    case inr.inl => exact ⟨p, rest, hpending, .inl hreset⟩
    case inr.inr.inr.inr =>
      obtain ⟨n, cw, rfl, haccepted⟩ := exec_changes_layout (heq.symm.trans hstep) hchange
      exact ⟨p, rest, hpending, .inr ⟨n, cw, hdecode, haccepted⟩⟩
    all_goals
      cases heq.symm.trans hstep
      simp at hchange

end Sys2Proof.Machine
end

section
/-! `layout_read` (R87, R88): its words, and the register each selector names. -/

namespace Sys2Proof

/-- The first operand field of a word is ORed into the word without it (R61). -/
theorem assembleWord_eq_or_f1 (op : BitVec 8) (f1 f2 : BitVec 7) (cw : BitVec 3) :
    assembleWord op f1 f2 cw = assembleWord op 0 f2 cw ||| f1.setWidth 32 <<< 8 := by
  unfold assembleWord
  rw [show (0 : BitVec 7).setWidth 32 <<< 8 = 0#32 from rfl, BitVec.or_zero]
  simp only [BitVec.or_assoc, BitVec.or_comm (f1.setWidth 32 <<< 8)]

/-- The words of the indexed selectors. -/
theorem decode_layoutRead_indexed {sel : Selector} (hsel : sel.indexed = true) (k : BitVec 7) :
    decode (encode (.layoutRead sel 0) ||| k.setWidth 32 <<< 8) = .ok (.layoutRead sel k) := by
  refine decode_eq_ok_iff.mpr ⟨?_, ?_⟩
  · rw [Instr.wellFormed, hsel, Bool.true_or]
  · exact assembleWord_eq_or_f1 0x02 k sel.code 0

theorem decode_error_of_reserved_selector {w : CmdWord} (hop : opField w = 0x02) (hsel : 8 < (f2Field w).toNat) :
    ∃ e, decode w = .error e :=
  exists_decode_error_iff.mpr (.inr (.inr (.inr (.inr (.inr (.inr (.inl ⟨hop, hsel⟩)))))))

end Sys2Proof

namespace Sys2Proof.Machine

variable {s : State} {L : Layout} {p : Ports} {sel : Selector} {k : BitVec 7} {i : Nat}

theorem Layout.selected_of_scalar (h : sel.indexed = false) (i : Nat) : L.selected sel i = L.selected sel 0 := by
  cases sel with
  | width | offset | fieldmask => simp [Selector.indexed] at h
  | _ => rfl

theorem Layout.width_of_lt (hi : i < 64) : L.width i = L.LW[i].toNat := by simp [Layout.width, hi]

theorem Layout.offset_of_lt (hi : i < 64) : L.offset i = L.LOFF[i].toNat := by simp [Layout.offset, hi]

theorem Layout.selected_width (hi : i < 64) : (L.selected .width i).toNat = L.LW[i].toNat := by
  have hlt := L.LW[i].isLt
  rw [Layout.selected, L.width_of_lt hi, BitVec.toNat_ofNat]
  omega

theorem Layout.selected_offset (hi : i < 64) : (L.selected .offset i).toNat = L.LOFF[i].toNat := by
  have hlt := L.LOFF[i].isLt
  rw [Layout.selected, L.offset_of_lt hi, BitVec.toNat_ofNat]
  omega

theorem Layout.selected_fieldmask (hi : i < 64) : L.selected .fieldmask i = L.LFM[i] := by
  simp [Layout.selected, Layout.fieldMask, hi]

theorem Instr.body_layoutRead_of_indexed (hsel : sel.indexed = true) :
    Instr.body p (.layoutRead sel k) L = L.withField k (L.selected sel) :=
  if_pos hsel

theorem Instr.body_layoutRead_of_scalar (hsel : sel.indexed = false) :
    Instr.body p (.layoutRead sel k) L = .ok (L.selected sel 0) :=
  if_neg (by simp [hsel])

theorem Instr.body_layoutRead_ok (h : sel.indexed = true → k.toNat < L.n) :
    Instr.body p (.layoutRead sel k) L = .ok (L.selected sel k.toNat) := by
  cases hsel : sel.indexed with
  | true => rw [Instr.body_layoutRead_of_indexed hsel, Layout.withField_lt (h hsel)]
  | false => rw [Instr.body_layoutRead_of_scalar hsel, L.selected_of_scalar hsel k.toNat]

theorem Instr.body_layoutRead_index (hsel : sel.indexed = true) (h : L.n ≤ k.toNat) :
    Instr.body p (.layoutRead sel k) L = .error .index := by
  rw [Instr.body_layoutRead_of_indexed hsel, Layout.withField_ge h]

/-- A ready unit finishes a command with the value its body has under the layout. -/
theorem State.Ready.exec_of_body_ok (h : s.Ready) {i : Instr} {r : Word} (hcompute : Instr.isComputeLayout i = false)
    (hbody : Instr.body s.ports i s.lay = .ok r) : exec i s = .next { s with RES := r, RVALID := true } := by
  rw [exec_compute hcompute, State.compute_ok h.layout hbody]
  rfl

/-- A ready unit enters the fault that a command's body raises under the layout. -/
theorem State.Ready.exec_of_body_error (h : s.Ready) {i : Instr} {c : ErrCode}
    (hcompute : Instr.isComputeLayout i = false) (hbody : Instr.body s.ports i s.lay = .error c) :
    ∃ t, exec i s = .next t ∧ s.FaultEntry c t := by
  refine ⟨s.takeFault c, ?_, s.takeFault_faultEntry c⟩
  rw [exec_compute hcompute, State.compute_error h.layout hbody]

/-- Settles O22: the selector's word is legal and its value a register's; an index below `LN` names an entry. -/
theorem layoutReadReturnsRegister : Obligations.LayoutReadReturnsRegister := by
  refine ⟨?_, fun k => ⟨?_, ?_, ?_⟩, fun w => decode_error_of_reserved_selector,
    fun s sel k => noLayoutFault (.layoutRead sel k) s rfl,
    fun s sel k hready hsel hge => hready.exec_of_body_error rfl (Instr.body_layoutRead_index hsel hge), ?_⟩
  · refine ⟨?_, ?_, ?_, ?_, ?_, ?_⟩
    all_goals exact decode_eq_ok_iff.mpr ⟨rfl, rfl⟩
  · exact decode_layoutRead_indexed (sel := .width) rfl k
  · exact decode_layoutRead_indexed (sel := .offset) rfl k
  · exact decode_layoutRead_indexed (sel := .fieldmask) rfl k
  · intro s sel k hready hindex
    have hlt : sel.indexed = true → k.toNat < 64 := fun h => Nat.lt_of_lt_of_le (hindex h) hready.wf.n_le
    refine ⟨_, hready.exec_of_body_ok rfl (Instr.body_layoutRead_ok hindex), ?_⟩
    refine ⟨?_, ?_, ?_, ?_, ?_, ?_, ?_, ?_, ?_⟩
    all_goals rintro rfl
    · exact BitVec.toNat_setWidth_of_le (by omega)
    · exact BitVec.toNat_setWidth_of_le (by omega)
    · exact BitVec.toNat_setWidth_of_le (by omega)
    · rfl
    · rfl
    · rfl
    · exact ⟨hlt rfl, Layout.selected_width _⟩
    · exact ⟨hlt rfl, Layout.selected_offset _⟩
    · exact ⟨hlt rfl, Layout.selected_fieldmask _⟩

end Sys2Proof.Machine
end

section
/-! `pack` (R100) builds the word that `join` (R8) builds of the lanes. -/

namespace Sys2Proof.Machine

variable {L : Layout} {p : Ports}

/-- The loop of `pack` (R100) over the fields below `m`. -/
def Layout.packBelow (L : Layout) (p : Ports) (m : Nat) : Word :=
  (List.range m).foldl
    (fun r i => r ||| BitVec.ofNat 64 (((p.lane i).toNat &&& ones (L.width i)) <<< L.offset i)) 0

theorem Layout.packLanes_eq_packBelow (L : Layout) (p : Ports) : L.packLanes p = L.packBelow p L.n := rfl

/-- What the loop ORs in at field `i` is the term of `join` for the lane. -/
theorem Layout.place_lane (L : Layout) (p : Ports) (i : Nat) :
    L.place i (p.lane i).toNat = ((p.lane i).toNat &&& ones (L.width i)) <<< L.offset i := by
  rw [L.place_eq, pattern_natCast, ones, Nat.and_two_pow_sub_one_eq_mod, Nat.shiftLeft_eq]

theorem Layout.packBelow_succ (L : Layout) (p : Ports) (m : Nat) :
    L.packBelow p (m + 1) = L.packBelow p m ||| BitVec.ofNat 64 (L.place m (p.lane m).toNat) := by
  rw [L.place_lane, Layout.packBelow, List.range_succ, List.foldl_append]
  rfl

/-- Each lane lands above the fields joined so far, so that ORing it in is adding it. -/
theorem Layout.WF.packBelow_toNat (wf : L.WF) (p : Ports) :
    ∀ m ≤ L.n, (L.packBelow p m).toNat = L.joinBelow (fun i => ((p.lane i).toNat : Int)) m := by
  intro m
  induction m with
  | zero => intro _; rfl
  | succ m ih =>
    intro hm
    have hbelow := wf.joinBelow_lt (fun i => ((p.lane i).toNat : Int)) m (Nat.le_of_succ_le hm)
    have h64 : L.joinBelow (fun i => ((p.lane i).toNat : Int)) (m + 1) < 2 ^ 64 :=
      (wf.joinBelow_lt _ _ hm).trans_le
        (Nat.pow_le_pow_right (by omega) ((L.widthSum_mono hm).trans wf.widthSum_le))
    rw [L.joinBelow_succ] at h64 ⊢
    rw [L.packBelow_succ, BitVec.toNat_or, ih (Nat.le_of_succ_le hm), BitVec.toNat_ofNat,
      Nat.mod_eq_of_lt (Nat.lt_of_le_of_lt (Nat.le_add_left _ _) h64), L.place_eq, wf.offset_eq m hm, Nat.or_comm,
      Nat.mul_comm, ← Nat.two_pow_add_eq_or_of_lt hbelow, Nat.add_comm]

theorem Layout.WF.packLanes_eq_join (wf : L.WF) (p : Ports) :
    L.packLanes p = L.join fun i => ((p.lane i).toNat : Int) := by
  apply BitVec.eq_of_toNat_eq
  rw [L.packLanes_eq_packBelow, wf.packBelow_toNat p _ le_rfl, wf.join_toNat]

theorem Layout.WF.packLanes_holds (wf : L.WF) (p : Ports) :
    L.Holds (L.packLanes p) fun i => (p.lane i).toNat % 2 ^ L.width i := by
  have h := wf.join_holds fun i => ((p.lane i).toNat : Int)
  simp only [pattern_natCast] at h
  rwa [wf.packLanes_eq_join]

theorem State.Ready.exec_pack {s : State} (h : s.Ready) :
    exec .pack s = .next { s with RES := s.lay.packLanes s.ports, RVALID := true } :=
  h.exec_of_body_ok rfl rfl

/-- Settles O23: the loop of `pack` builds the word that `join` builds of the lanes. -/
theorem packStoresEachLane : Obligations.PackStoresEachLane :=
  ⟨decode_eq_ok_iff.mpr ⟨rfl, rfl⟩, fun s => noLayoutFault .pack s rfl,
    fun s hready => ⟨_, hready.exec_pack, hready.wf.packLanes_holds s.ports⟩⟩

end Sys2Proof.Machine
end

section
/-! The unpack commands (R101, R102): a field fits in 64 bits, unsigned and signed, and the source's container-width
formula reads the same value as the field's own width does. -/

namespace Sys2Proof.Machine

variable {s : State} {L : Layout} {p : Ports} {k : BitVec 7}

theorem Layout.toNat_ofNat_fld (L : Layout) (a : Word) (i : Nat) : (BitVec.ofNat 64 (L.fld a i)).toNat = L.fld a i := by
  rw [BitVec.toNat_ofNat, Nat.mod_eq_of_lt]
  rw [L.fld_eq]
  exact ((Nat.mod_le _ _).trans (Nat.div_le_self _ _)).trans_lt a.isLt

theorem Layout.WF.sfld_bounds (wf : L.WF) (a : Word) {i : Nat} (hi : i < L.n) :
    -((2 ^ (L.width i - 1) : Nat) : Int) ≤ L.sfld a i ∧ L.sfld a i ≤ ((2 ^ (L.width i - 1) : Nat) : Int) - 1 :=
  sgn_bounds (wf.width_pos i hi) (L.fld_lt a i)

theorem Layout.WF.toInt_ofInt_sfld (wf : L.WF) (a : Word) {i : Nat} (hi : i < L.n) :
    (BitVec.ofInt 64 (L.sfld a i)).toInt = L.sfld a i := by
  obtain ⟨hge, hle⟩ := wf.sfld_bounds a hi
  have hwidth := wf.end_le_64 hi
  have hpow : 2 ^ (L.width i - 1) ≤ 2 ^ 63 := Nat.pow_le_pow_right (by omega) (by omega)
  exact BitVec.toInt_ofInt_eq_self (by omega) (by omega) (by omega)

/-- A pattern with `d` more bits below it is read as itself moved up by `d`, with those bits added. -/
theorem sgn_mul_two_pow_add {v w d r : Nat} (hw : 1 ≤ w) (hr : r < 2 ^ d) :
    sgn (v * 2 ^ d + r) (w + d) = sgn v w * ((2 ^ d : Nat) : Int) + r := by
  have hhalf : 2 ^ (w + d - 1) = 2 ^ (w - 1) * 2 ^ d := by rw [← Nat.pow_add]; congr 1; omega
  have hsign : 2 ^ (w + d - 1) ≤ v * 2 ^ d + r ↔ 2 ^ (w - 1) ≤ v := by
    rw [hhalf, ← Nat.le_div_iff_mul_le (Nat.two_pow_pos d), Nat.mul_comm, Nat.mul_add_div (Nat.two_pow_pos d),
      Nat.div_eq_of_lt hr, Nat.add_zero]
  unfold sgn
  simp only [hsign]
  split_ifs
  · rw [Nat.pow_add]
    push_cast
    ring
  · push_cast
    ring

/-- A field moved to the top of the container: the fields above it fall out, those below it fill the bits under it. -/
theorem Layout.shiftLeft_mod_container (L : Layout) (a : Word) (i d : Nat) :
    a.toNat <<< d % 2 ^ (L.offset i + L.width i + d) =
      L.fld a i * 2 ^ (L.offset i + d) + a.toNat % 2 ^ L.offset i * 2 ^ d := by
  rw [Nat.shiftLeft_eq, Nat.pow_add _ _ d, Nat.mul_mod_mul_right, Nat.pow_add, Nat.mod_mul, ← L.fld_eq, Nat.pow_add]
  ring

/-- The container-width formula of R102 reads the field by its own top bit. -/
theorem Layout.WF.unpackSignedByContainer_eq (wf : L.WF) (a : Word) {i : Nat} (hi : i < L.n) :
    L.unpackSignedByContainer a i = L.sfld a i := by
  obtain ⟨d, hC⟩ := Nat.exists_eq_add_of_le ((wf.end_le hi).trans wf.lsum_le_lc)
  have hshift : L.LC.toNat - L.offset i - L.width i = d := by omega
  have hscale : L.LC.toNat - L.width i = L.offset i + d := by omega
  have hwidth : L.offset i + L.width i + d = L.width i + (L.offset i + d) := by omega
  have hlow : (L.conf a).toNat % 2 ^ L.offset i * 2 ^ d < 2 ^ (L.offset i + d) := by
    rw [Nat.pow_add]
    exact Nat.mul_lt_mul_of_pos_right (Nat.mod_lt _ (Nat.two_pow_pos _)) (Nat.two_pow_pos _)
  have hpos : (0 : Int) < ((2 ^ (L.offset i + d) : Nat) : Int) := by exact_mod_cast Nat.two_pow_pos _
  simp only [Layout.unpackSignedByContainer]
  rw [hshift, hscale, hC, L.shiftLeft_mod_container, hwidth, sgn_mul_two_pow_add (wf.width_pos i hi) hlow,
    Int.add_comm, Int.add_mul_ediv_right _ _ hpos.ne', Int.ediv_eq_zero_of_lt (by omega) (by exact_mod_cast hlow),
    Int.zero_add, wf.fld_conf a hi, Layout.sfld]

theorem Instr.body_unpackUnsigned :
    Instr.body p (.unpackUnsigned k) L = L.withField k fun j => BitVec.ofNat 64 (L.fld p.A j) := rfl

theorem Instr.body_unpackSigned :
    Instr.body p (.unpackSigned k) L = L.withField k fun j => BitVec.ofInt 64 (L.sfld p.A j) := rfl

theorem State.Ready.exec_unpackUnsigned (h : s.Ready) (hk : k.toNat < s.lay.n) :
    exec (.unpackUnsigned k) s =
      .next { s with RES := BitVec.ofNat 64 (s.lay.fld s.ports.A k.toNat), RVALID := true } :=
  h.exec_of_body_ok rfl (Instr.body_unpackUnsigned.trans (Layout.withField_lt hk _))

theorem State.Ready.exec_unpackSigned (h : s.Ready) (hk : k.toNat < s.lay.n) :
    exec (.unpackSigned k) s =
      .next { s with RES := BitVec.ofInt 64 (s.lay.sfld s.ports.A k.toNat), RVALID := true } :=
  h.exec_of_body_ok rfl (Instr.body_unpackSigned.trans (Layout.withField_lt hk _))

/-- Settles O24: the index names a field, which fits in the 64 bits of `RES`. -/
theorem unpackUnsignedReturnsField : Obligations.UnpackUnsignedReturnsField := by
  refine ⟨fun k => decode_eq_ok_iff.mpr ⟨rfl, assembleWord_eq_or_f1 0x11 k 0 0⟩,
    fun s k => noLayoutFault (.unpackUnsigned k) s rfl,
    fun s k hready hge =>
      hready.exec_of_body_error rfl (Instr.body_unpackUnsigned.trans (Layout.withField_ge hge _)), ?_⟩
  intro s k hready hk
  exact ⟨_, hready.exec_unpackUnsigned hk, by rw [Layout.toNat_ofNat_fld, Layout.fld_eq]⟩

/-- Settles O25: the field's signed reading fits in the 64 bits of `RES`. -/
theorem unpackSignedReturnsField : Obligations.UnpackSignedReturnsField := by
  refine ⟨fun k => decode_eq_ok_iff.mpr ⟨rfl, assembleWord_eq_or_f1 0x12 k 0 0⟩,
    fun s k => noLayoutFault (.unpackSigned k) s rfl,
    fun s k hready hge =>
      hready.exec_of_body_error rfl (Instr.body_unpackSigned.trans (Layout.withField_ge hge _)), ?_⟩
  intro s k hready hk
  obtain ⟨hge, hle⟩ := hready.wf.sfld_bounds s.ports.A hk
  refine ⟨_, hready.exec_unpackSigned hk, ?_⟩
  rw [hready.wf.toInt_ofInt_sfld _ hk]
  exact ⟨rfl, hge, hle, hready.wf.unpackSignedByContainer_eq _ hk⟩

end Sys2Proof.Machine
end

section
/-! `equal` (R103) and the round trip of the codec (R105). -/

namespace Sys2Proof.Machine

variable {s : State} {L : Layout}

/-- Two words have the same conformant part exactly when they agree in every field. -/
theorem Layout.WF.conf_eq_iff (wf : L.WF) (a b : Word) : L.conf a = L.conf b ↔ ∀ i < L.n, L.fld a i = L.fld b i := by
  refine ⟨fun h i hi => ?_, wf.conf_ext⟩
  rw [← wf.fld_conf a hi, h, wf.fld_conf b hi]

/-- Settles O26: the conformant part of a word is its fields. -/
theorem equalComparesFields : Obligations.EqualComparesFields := by
  refine ⟨decode_eq_ok_iff.mpr ⟨rfl, rfl⟩, fun s => noLayoutFault .equal s rfl, ?_⟩
  intro s hready
  refine ⟨_, hready.exec_of_body_ok rfl rfl, fun h => if_pos h, fun h => if_neg h, ?_⟩
  rw [← hready.wf.conf_eq_iff]
  split_ifs with h <;> simp [h]

/-- The host may put any word on port `A` of a ready unit, whatever its result registers hold. -/
theorem State.Ready.with_A (h : s.Ready) (r a : Word) (v : Bool) :
    State.Ready { s with RES := r, RVALID := v, ports := { s.ports with A := a } } :=
  ⟨h.no_fault, h.layout, h.wf⟩

/-- Packing the fields of a conformant word gives the word. -/
theorem Layout.WF.packLanes_of_lane_eq_fld (wf : L.WF) {p : Ports} {a : Word} (ha : L.conf a = a)
    (h : ∀ i < L.n, (p.lane i).toNat = L.fld a i) : L.packLanes p = a := by
  obtain ⟨hconf, hfld⟩ := wf.packLanes_holds p
  refine wf.ext hconf ha fun i hi => (hfld i hi).trans ?_
  simp only [h i hi]
  exact Nat.mod_eq_of_lt (L.fld_lt a i)

/-- Settles O27: the unit is as ready after `pack` as before it, and the packed word's fields are the lanes. -/
theorem packUnpackRoundTrip : Obligations.PackUnpackRoundTrip := by
  constructor
  · intro s t k hready hk hexec
    cases hready.exec_pack.symm.trans hexec
    obtain ⟨-, hfld⟩ := hready.wf.packLanes_holds s.ports
    have hready' := hready.with_A (s.lay.packLanes s.ports) (s.lay.packLanes s.ports) true
    refine ⟨⟨_, hready'.exec_unpackUnsigned hk, rfl, ?_⟩, ⟨_, hready'.exec_unpackSigned hk, rfl, ?_⟩⟩
    · exact (s.lay.toNat_ofNat_fld _ _).trans (hfld _ hk)
    · exact (hready.wf.toInt_ofInt_sfld _ hk).trans (congrArg (sgn · _) (hfld _ hk))
  · intro s t a hready ha hlanes hexec
    cases hready.exec_pack.symm.trans hexec
    exact hready.wf.packLanes_of_lane_eq_fld ha hlanes

end Sys2Proof.Machine
end

section
/-! Conformant results (R106): a packed result is a `join` over the fields, and a slice is no wider than its
sub-layout (R166). -/

namespace Sys2Proof.Machine

variable {s : State} {L : Layout} {p : Ports} {first last : Nat}

theorem Instr.body_conformant (wf : L.WF) {i : Instr} (h : Instr.returnsPacked i = true) :
    ∃ r, Instr.body p i L = .ok r ∧ L.conf r = r := by
  cases i with
  | computeLayout | layoutRead | unpackUnsigned | unpackSigned | equal | slice => simp [Instr.returnsPacked] at h
  | pack => exact ⟨_, rfl, (wf.packLanes_holds p).1⟩
  | _ => exact ⟨_, rfl, wf.conf_join _⟩

theorem Instr.isComputeLayout_of_returnsPacked {i : Instr} (h : Instr.returnsPacked i = true) :
    Instr.isComputeLayout i = false := by
  cases i with
  | computeLayout => simp [Instr.returnsPacked] at h
  | _ => rfl

theorem Layout.widthsBetween_sum (L : Layout) (h : first ≤ last) :
    L.widthSum first + (L.widthsBetween first last).sum = L.widthSum last := by
  obtain ⟨m, rfl⟩ := Nat.exists_eq_add_of_le h
  rw [Layout.widthsBetween, Nat.add_sub_cancel_left, Layout.widthSum, Layout.widthSum, List.range_add, List.map_append,
    List.sum_append, List.map_map]
  rfl

theorem Layout.WF.widthsBetween_sum_le (wf : L.WF) (h : first ≤ last) (h' : last ≤ L.n) :
    (L.widthsBetween first last).sum ≤ 64 := by
  have hsum := L.widthsBetween_sum h
  have hle := (L.widthSum_mono h').trans wf.widthSum_le
  omega

theorem Layout.WF.widthsBetween_pos (wf : L.WF) (h' : last ≤ L.n) : ∀ w ∈ L.widthsBetween first last, 1 ≤ w := by
  intro w hw
  simp only [Layout.widthsBetween, List.mem_map, List.mem_range] at hw
  obtain ⟨j, hj, rfl⟩ := hw
  exact wf.width_pos _ (by omega)

theorem Layout.widthsBetween_ne_nil (L : Layout) (h : first < last) : L.widthsBetween first last ≠ [] := by
  simp only [Layout.widthsBetween, ne_eq, List.map_eq_nil_iff, List.range_eq_nil]
  omega

/-- The sub-layout of a slice (R166) is a compiled layout. -/
theorem Layout.WF.subLayout_wf (wf : L.WF) (k : Nat) (h : first < last) (h' : last ≤ L.n) :
    (L.subLayout k first last).WF := by
  have hsum := wf.widthsBetween_sum_le h.le h'
  exact deriveLayout_wf hsum (wf.widthsBetween_pos h') (L.widthsBetween_ne_nil h) (container_mem _ _)
    (le_container_auto hsum)

theorem Layout.sliceFields_toNat_lt (L : Layout) (a : Word) (first last : Nat) :
    (L.sliceFields a first last).toNat < 2 ^ (L.widthsBetween first last).sum := by
  rw [Layout.sliceFields, BitVec.toNat_ofNat, ones, Nat.and_two_pow_sub_one_eq_mod]
  exact (Nat.mod_le _ _).trans_lt (Nat.mod_lt _ (Nat.two_pow_pos _))

/-- A slice is conformant to its sub-layout (R106). -/
theorem Layout.WF.subLayout_conf_sliceFields (wf : L.WF) (a : Word) (k : Nat) (h : first < last) (h' : last ≤ L.n) :
    (L.subLayout k first last).conf (L.sliceFields a first last) = L.sliceFields a first last := by
  refine (wf.subLayout_wf k h h').conf_eq_of_lt ?_
  rw [Layout.subLayout, deriveLayout_lsum (wf.widthsBetween_sum_le h.le h')]
  exact L.sliceFields_toNat_lt a first last

theorem State.Ready.exec_slice (h : s.Ready) {first last : BitVec 7} (hlt : first.toNat < last.toNat)
    (hle : last.toNat ≤ s.lay.n) :
    exec (.slice first last) s =
      .next { s with RES := s.lay.sliceFields s.ports.A first.toNat last.toNat, RVALID := true } :=
  h.exec_of_body_ok rfl (Layout.withRange_ok hlt hle _)

/-- Settles O28: each packed result is a `join` or what `pack` builds, and a slice has the bits of its fields alone. -/
theorem packedResultsAreConformant : Obligations.PackedResultsAreConformant := by
  constructor
  · intro i s t hready hpacked hexec
    obtain ⟨r, hbody, hconf⟩ := Instr.body_conformant (p := s.ports) hready.wf hpacked
    cases (hready.exec_of_body_ok (Instr.isComputeLayout_of_returnsPacked hpacked) hbody).symm.trans hexec
    exact Layout.and_not_LVM_of_conf hconf
  · rintro s t first last k hready ⟨hlt, hle⟩ hexec
    cases (hready.exec_slice hlt hle).symm.trans hexec
    exact Layout.and_not_LVM_of_conf (hready.wf.subLayout_conf_sliceFields s.ports.A k hlt hle)

end Sys2Proof.Machine
end

section
/-! Addition in one field, as the closed forms of R120 and R121 do it: the bits below the top add with a carry in, and
XOR completes the top bit, where no carry can leave. -/

namespace Sys2Proof.Machine

theorem mod_two_pow_succ_eq_add_and (x k : Nat) : x % 2 ^ (k + 1) = x % 2 ^ k + (x &&& 2 ^ k) := by
  rw [Nat.mod_pow_succ, Nat.and_two_pow, Nat.toNat_testBit, Nat.mul_comm]

/-- Flipping bit `k` is adding it, once the carry out of it is dropped. -/
theorem xor_two_pow_modEq (x k : Nat) : x ^^^ 2 ^ k ≡ 2 ^ k + x [MOD 2 ^ (k + 1)] := by
  have hlow : (x ^^^ 2 ^ k) % 2 ^ k = (2 ^ k + x) % 2 ^ k := by simp [Nat.xor_mod_two_pow]
  have htop : (x ^^^ 2 ^ k).testBit k = (2 ^ k + x).testBit k := by
    rw [Nat.testBit_xor, Nat.testBit_two_pow_self, Nat.testBit_two_pow_add_eq, Bool.xor_true]
  rw [Nat.ModEq, mod_two_pow_succ_eq_add_and, mod_two_pow_succ_eq_add_and, hlow, Nat.and_two_pow, Nat.and_two_pow, htop]

theorem xor_and_two_pow_modEq (x y k : Nat) : x ^^^ (y &&& 2 ^ k) ≡ x + (y &&& 2 ^ k) [MOD 2 ^ (k + 1)] := by
  rw [Nat.and_two_pow]
  cases y.testBit k with
  | false => simp [Nat.ModEq.refl]
  | true => simpa [Nat.add_comm x] using xor_two_pow_modEq x k

/-- The masked adder in a field of width `k + 1`. -/
theorem maskedAdd_eq {c : Nat} (x y k : Nat) (hc : c ≤ 1) :
    (x % 2 ^ k + y % 2 ^ k + c) ^^^ ((x ^^^ y) &&& 2 ^ k) = (x + y + c) % 2 ^ (k + 1) := by
  have hx := Nat.mod_lt x (Nat.two_pow_pos k)
  have hy := Nat.mod_lt y (Nat.two_pow_pos k)
  have hlow : x % 2 ^ k + y % 2 ^ k + c < 2 ^ (k + 1) := by omega
  have htop : (x ^^^ y) &&& 2 ^ k < 2 ^ (k + 1) :=
    Nat.lt_of_le_of_lt Nat.and_le_right (Nat.pow_lt_pow_right (by omega) (by omega))
  rw [← Nat.mod_eq_of_lt (Nat.xor_lt_two_pow hlow htop), ← Nat.ModEq]
  calc (x % 2 ^ k + y % 2 ^ k + c) ^^^ ((x ^^^ y) &&& 2 ^ k)
      ≡ x % 2 ^ k + y % 2 ^ k + c + ((x ^^^ y) &&& 2 ^ k) [MOD 2 ^ (k + 1)] := xor_and_two_pow_modEq _ _ k
    _ ≡ x % 2 ^ k + y % 2 ^ k + c + ((x &&& 2 ^ k) + (y &&& 2 ^ k)) [MOD 2 ^ (k + 1)] := by
      rw [Nat.and_xor_distrib_right]
      exact (xor_and_two_pow_modEq (x &&& 2 ^ k) y k).add_left _
    _ = x % 2 ^ (k + 1) + y % 2 ^ (k + 1) + c := by
      rw [mod_two_pow_succ_eq_add_and x, mod_two_pow_succ_eq_add_and y]
      ring
    _ ≡ x + y + c [MOD 2 ^ (k + 1)] := ((Nat.mod_modEq x _).add (Nat.mod_modEq y _)).add_right c

theorem or_two_pow_of_lt {x k : Nat} (hx : x < 2 ^ (k + 1)) : x ||| 2 ^ k = x % 2 ^ k + 2 ^ k := by
  have hlt : x ||| 2 ^ k < 2 ^ (k + 1) := Nat.or_lt_two_pow hx (Nat.pow_lt_pow_right (by omega) (by omega))
  rw [← Nat.mod_eq_of_lt hlt, mod_two_pow_succ_eq_add_and, Nat.or_mod_two_pow, Nat.and_two_pow]
  simp

/-- The low bits of a complement are the complement of the low bits. -/
theorem complement_mod_two_pow {x k n : Nat} (hx : x < 2 ^ n) (hk : k ≤ n) :
    (2 ^ n - 1 - x) % 2 ^ k = 2 ^ k - 1 - x % 2 ^ k := by
  apply Nat.eq_of_testBit_eq
  intro j
  rw [Nat.testBit_mod_two_pow, Nat.sub_sub, Nat.sub_sub, Nat.add_comm 1, Nat.add_comm 1,
    Nat.testBit_two_pow_sub_succ hx, Nat.testBit_two_pow_sub_succ (Nat.mod_lt x (Nat.two_pow_pos k)),
    Nat.testBit_mod_two_pow]
  by_cases hj : j < k
  · simp [hj, Nat.lt_of_lt_of_le hj hk]
  · simp [hj]

end Sys2Proof.Machine
end

section
/-! `add_wrap` and `sub_wrap` by their fields (R120, R121), and what follows from the fields alone (R122). -/

namespace Sys2Proof.Machine

variable {s : State} {L : Layout} {p q : Word} {f g : Nat → Nat}

/-- Conformant words that hold the same fields are one word. -/
theorem Layout.WF.eq_of_holds (wf : L.WF) (hp : L.Holds p f) (hq : L.Holds q g) (h : ∀ i < L.n, f i = g i) : p = q :=
  wf.ext hp.1 hq.1 fun i hi => (hp.2 i hi).trans ((h i hi).trans (hq.2 i hi).symm)

theorem Layout.WF.conf_holds (wf : L.WF) (a : Word) : L.Holds (L.conf a) fun i => L.fld a i :=
  ⟨wf.conf_conf a, fun _ hi => wf.fld_conf a hi⟩

@[simp] theorem Layout.fld_zero (L : Layout) (i : Nat) : L.fld 0 i = 0 := by simp [L.fld_eq]

theorem Layout.zero_holds (L : Layout) : L.Holds 0 fun _ => 0 :=
  ⟨by simp [Layout.conf], fun i _ => L.fld_zero i⟩

/-- A difference below zero wraps: its pattern is that of the sum with the complement of the subtrahend. -/
theorem pattern_natCast_sub {u v w : Nat} (h : v ≤ 2 ^ w) :
    pattern ((u : Int) - (v : Int)) w = (u + (2 ^ w - v)) % 2 ^ w := by
  have hwrap : ((u + (2 ^ w - v) : Nat) : Int) = (u : Int) - (v : Int) + ((2 ^ w : Nat) : Int) := by omega
  rw [← pattern_natCast, hwrap, pattern, pattern, Int.add_emod_right]

theorem Layout.WF.addWrap_holds (wf : L.WF) (a b : Word) :
    L.Holds (L.addWrap a b) fun i => (L.fld a i + L.fld b i) % 2 ^ L.width i := by
  refine ⟨wf.conf_join _, fun i hi => (wf.fld_join _ hi).trans ?_⟩
  rw [pattern_natCast, wf.fld_conf a hi, wf.fld_conf b hi]

theorem Layout.WF.subWrap_holds (wf : L.WF) (a b : Word) :
    L.Holds (L.subWrap a b) fun i => (L.fld a i + (2 ^ L.width i - L.fld b i)) % 2 ^ L.width i := by
  refine ⟨wf.conf_join _, fun i hi => (wf.fld_join _ hi).trans ?_⟩
  rw [pattern_natCast_sub (L.fld_lt _ i).le, wf.fld_conf a hi, wf.fld_conf b hi]

/-- Settles O29: the wrapping sum is a `join` over the fields. -/
theorem addWrapAddsEachField : Obligations.AddWrapAddsEachField := fun s hready =>
  ⟨_, hready.exec_of_body_ok rfl rfl, hready.wf.addWrap_holds s.ports.A s.ports.B⟩

/-- Settles O30: the wrapping difference is a `join` over the fields. -/
theorem subWrapSubtractsEachField : Obligations.SubWrapSubtractsEachField := fun s hready =>
  ⟨_, hready.exec_of_body_ok rfl rfl, hready.wf.subWrap_holds s.ports.A s.ports.B⟩

theorem Layout.WF.addWrap_comm (wf : L.WF) (a b : Word) : L.addWrap a b = L.addWrap b a :=
  wf.eq_of_holds (wf.addWrap_holds a b) (wf.addWrap_holds b a) fun i _ => by rw [Nat.add_comm]

theorem Layout.WF.addWrap_assoc (wf : L.WF) (a b c : Word) :
    L.addWrap (L.addWrap a b) c = L.addWrap a (L.addWrap b c) := by
  refine wf.eq_of_holds (wf.addWrap_holds _ c) (wf.addWrap_holds a _) fun i hi => ?_
  simp only [(wf.addWrap_holds a b).2 i hi, (wf.addWrap_holds b c).2 i hi, Nat.mod_add_mod, Nat.add_mod_mod,
    Nat.add_assoc]

theorem Layout.WF.addWrap_zero (wf : L.WF) (a : Word) : L.addWrap a 0 = L.conf a :=
  wf.eq_of_holds (wf.addWrap_holds a 0) (wf.conf_holds a) fun i _ => by
    rw [L.fld_zero, Nat.add_zero, Nat.mod_eq_of_lt (L.fld_lt a i)]

theorem Layout.WF.addWrap_subWrap_zero (wf : L.WF) (b : Word) : L.addWrap b (L.subWrap 0 b) = 0 := by
  refine wf.eq_of_holds (wf.addWrap_holds b _) L.zero_holds fun i hi => ?_
  simp only [(wf.subWrap_holds 0 b).2 i hi, L.fld_zero]
  rw [Nat.zero_add, Nat.add_mod_mod, Nat.add_sub_cancel' (L.fld_lt b i).le, Nat.mod_self]

theorem Layout.WF.subWrap_addWrap (wf : L.WF) (a b : Word) : L.subWrap (L.addWrap a b) b = L.conf a := by
  refine wf.eq_of_holds (wf.subWrap_holds _ b) (wf.conf_holds a) fun i hi => ?_
  simp only [(wf.addWrap_holds a b).2 i hi]
  rw [Nat.mod_add_mod, Nat.add_assoc, Nat.add_sub_cancel' (L.fld_lt b i).le, Nat.add_mod_right,
    Nat.mod_eq_of_lt (L.fld_lt a i)]

/-- Settles O33: in each field the laws are those of the integers modulo `2^LW[i]`, and neither result reads `LC`. -/
theorem wrapLaws : Obligations.WrapLaws := fun _ a b c wf =>
  ⟨(wf.addWrap_holds a b).2, wf.addWrap_comm a b, wf.addWrap_assoc a b c, wf.addWrap_zero a,
    wf.addWrap_subWrap_zero b, wf.subWrap_addWrap a b, fun _ => ⟨rfl, rfl⟩⟩

end Sys2Proof.Machine
end

section
/-! The closed forms of the wrapping adder (R120, R121): `mask1` leaves the bits below each field's top, the whole-word
sum of such words carries out of no field, and `LHI` picks the top bits that XOR completes. -/

namespace Sys2Proof.Machine

variable {L : Layout} {p q : Word} {f g : Nat → Nat}

theorem Layout.Holds.xor (hp : L.Holds p f) (hq : L.Holds q g) : L.Holds (p ^^^ q) fun i => f i ^^^ g i :=
  ⟨by rw [L.conf_xor, hp.1, hq.1], fun i hi => by rw [L.fld_xor, hp.2 i hi, hq.2 i hi]⟩

/-- A mask that is conformant makes any word so. -/
theorem Layout.Holds.and_left (hq : L.Holds q g) (a : Word) : L.Holds (a &&& q) fun i => L.fld a i &&& g i := by
  refine ⟨?_, fun i hi => by rw [L.fld_and, hq.2 i hi]⟩
  have hconf := hq.1
  rw [Layout.conf] at hconf ⊢
  rw [BitVec.and_assoc, hconf]

theorem Layout.Holds.congr (hp : L.Holds p f) (h : ∀ i < L.n, f i = g i) : L.Holds p g :=
  ⟨hp.1, fun i hi => (hp.2 i hi).trans (h i hi)⟩

theorem Layout.Holds.add (wf : L.WF) (hp : L.Holds p f) (hq : L.Holds q g) (h : ∀ i < L.n, f i + g i < 2 ^ L.width i) :
    L.Holds (p + q) fun i => f i + g i :=
  (wf.add_holds hp.1 hq.1 fun i hi => by rw [hp.2 i hi, hq.2 i hi]; exact h i hi).congr fun i hi => by
    simp only [hp.2 i hi, hq.2 i hi]

theorem Layout.Holds.sub (wf : L.WF) (hp : L.Holds p f) (hq : L.Holds q g) (h : ∀ i < L.n, g i ≤ f i) :
    L.Holds (p - q) fun i => f i - g i :=
  (wf.sub_holds hp.1 hq.1 fun i hi => by rw [hp.2 i hi, hq.2 i hi]; exact h i hi).congr fun i hi => by
    simp only [hp.2 i hi, hq.2 i hi]

/-- A field has as many patterns with its top bit set as without. -/
theorem Layout.WF.two_pow_width (wf : L.WF) {i : Nat} (hi : i < L.n) :
    2 ^ L.width i = 2 ^ (L.width i - 1) + 2 ^ (L.width i - 1) := by
  rw [← Nat.mul_two, ← Nat.pow_succ, Nat.succ_eq_add_one, Nat.sub_add_cancel (wf.width_pos i hi)]

theorem Layout.WF.LVM_holds (wf : L.WF) : L.Holds L.LVM fun i => 2 ^ L.width i - 1 :=
  ⟨by simp [Layout.conf], fun _ hi => wf.fld_LVM hi⟩

theorem Layout.WF.mask1_holds (wf : L.WF) : L.Holds L.mask1 fun i => 2 ^ (L.width i - 1) - 1 := by
  refine (wf.LVM_holds.and_left (~~~L.LHI)).congr fun i hi => ?_
  have hwidth := wf.two_pow_width hi
  rw [Nat.and_two_pow_sub_one_of_lt_two_pow (L.fld_lt _ i), wf.fld_not _ hi, wf.fld_LHI hi]
  omega

theorem Layout.WF.and_mask1_holds (wf : L.WF) (a : Word) :
    L.Holds (a &&& L.mask1) fun i => L.fld a i % 2 ^ (L.width i - 1) :=
  (wf.mask1_holds.and_left a).congr fun _ _ => Nat.and_two_pow_sub_one_eq_mod _ _

/-- The sum of the bits below the top carries out of no field, even with a carry in. -/
theorem Layout.WF.mod_add_mod_lt (wf : L.WF) {i : Nat} (hi : i < L.n) (x y : Nat) :
    x % 2 ^ (L.width i - 1) + y % 2 ^ (L.width i - 1) + 1 < 2 ^ L.width i := by
  have hx := Nat.mod_lt x (Nat.two_pow_pos (L.width i - 1))
  have hy := Nat.mod_lt y (Nat.two_pow_pos (L.width i - 1))
  have hwidth := wf.two_pow_width hi
  omega

theorem Layout.WF.maskedSum_holds (wf : L.WF) (a b : Word) :
    L.Holds ((a &&& L.mask1) + (b &&& L.mask1)) fun i =>
      L.fld a i % 2 ^ (L.width i - 1) + L.fld b i % 2 ^ (L.width i - 1) :=
  (wf.and_mask1_holds a).add wf (wf.and_mask1_holds b) fun _ hi => Nat.lt_of_succ_lt (wf.mod_add_mod_lt hi _ _)

/-- XOR at the top bits completes a masked sum with carry in `c`. -/
theorem Layout.WF.xor_LHI_holds (wf : L.WF) {a b r : Word} {c : Nat} (hc : c ≤ 1)
    (hr : L.Holds r fun i => L.fld a i % 2 ^ (L.width i - 1) + L.fld b i % 2 ^ (L.width i - 1) + c) :
    L.Holds (r ^^^ ((a ^^^ b) &&& L.LHI)) fun i => (L.fld a i + L.fld b i + c) % 2 ^ L.width i :=
  (hr.xor (wf.LHI_holds.and_left (a ^^^ b))).congr fun i hi => by
    rw [L.fld_xor, maskedAdd_eq _ _ _ hc, Nat.sub_add_cancel (wf.width_pos i hi)]

theorem Layout.WF.addWrapClosed_holds (wf : L.WF) (a b : Word) :
    L.Holds (L.addWrapClosed a b) fun i => (L.fld a i + L.fld b i) % 2 ^ L.width i :=
  (wf.xor_LHI_holds (c := 0) (by omega) (wf.maskedSum_holds (L.conf a) (L.conf b))).congr fun i hi => by
    rw [wf.fld_conf a hi, wf.fld_conf b hi, Nat.add_zero]

/-- Settles O31: both words hold the wrapping sum in each field. -/
theorem addWrapClosedForm : Obligations.AddWrapClosedForm := fun _ a b wf =>
  wf.eq_of_holds (wf.addWrap_holds a b) (wf.addWrapClosed_holds a b) fun _ _ => rfl

/-- Adding a complement with a carry in is subtracting (R121): `nb` is any word whose fields are those of `b`
complemented, and `r` the masked sum before its top bits are completed. -/
theorem Layout.WF.subWrap_eq_of_masked (wf : L.WF) {a b nb r : Word}
    (hnb : ∀ i < L.n, L.fld nb i = 2 ^ L.width i - 1 - L.fld b i)
    (hr : L.Holds r fun i => L.fld a i % 2 ^ (L.width i - 1) + L.fld nb i % 2 ^ (L.width i - 1) + 1) :
    L.subWrap a b = r ^^^ ((L.conf a ^^^ nb) &&& L.LHI) := by
  have hr' := hr.congr fun i hi => by rw [← wf.fld_conf a hi]
  refine wf.eq_of_holds (wf.subWrap_holds a b) (wf.xor_LHI_holds le_rfl hr') fun i hi => ?_
  have hlt := L.fld_lt b i
  rw [wf.fld_conf a hi, hnb i hi]
  congr 1
  omega

theorem Layout.WF.fld_not_conf (wf : L.WF) (b : Word) {i : Nat} (hi : i < L.n) :
    L.fld (~~~L.conf b) i = 2 ^ L.width i - 1 - L.fld b i := by
  rw [wf.fld_not _ hi, wf.fld_conf b hi]

/-- The first closed form injects the carry at each field's lowest bit. -/
theorem Layout.WF.subWrap_eq_closed (wf : L.WF) (a b : Word) : L.subWrap a b = L.subWrapClosed a b := by
  have hsum := (wf.maskedSum_holds (L.conf a) (~~~L.conf b &&& L.LVM)).add wf wf.LLO_holds
    fun i hi => wf.mod_add_mod_lt hi _ _
  refine wf.subWrap_eq_of_masked (fun i hi => ?_) (hsum.congr fun i hi => by rw [wf.fld_conf a hi, Nat.pow_zero])
  rw [L.fld_and, wf.fld_LVM hi, Nat.and_two_pow_sub_one_of_lt_two_pow (L.fld_lt _ i), wf.fld_not_conf b hi]

theorem Layout.WF.or_LHI_holds (wf : L.WF) (a : Word) :
    L.Holds (L.conf a ||| L.LHI) fun i => L.fld a i % 2 ^ (L.width i - 1) + 2 ^ (L.width i - 1) := by
  refine ⟨by rw [L.conf_or, wf.conf_conf, wf.conf_LHI], fun i hi => ?_⟩
  rw [L.fld_or, wf.fld_conf a hi, wf.fld_LHI hi, or_two_pow_of_lt]
  simpa [Nat.sub_add_cancel (wf.width_pos i hi)] using L.fld_lt a i

theorem Layout.conf_and_not_LHI (L : Layout) (b : Word) : L.conf b &&& ~~~L.LHI = b &&& L.mask1 := by
  rw [Layout.conf, Layout.mask1, BitVec.and_assoc, BitVec.and_comm L.LVM]

/-- The second closed form lends each field its top bit, so that none borrows. -/
theorem Layout.WF.subWrap_eq_closed2 (wf : L.WF) (a b : Word) : L.subWrap a b = L.subWrapClosed2 a b := by
  have hsub := (wf.or_LHI_holds a).sub wf (L.conf_and_not_LHI b ▸ wf.and_mask1_holds b) fun i _ =>
    (Nat.mod_lt _ (Nat.two_pow_pos _)).le.trans (Nat.le_add_left _ _)
  refine wf.subWrap_eq_of_masked (fun i hi => wf.fld_not_conf b hi) (hsub.congr fun i hi => ?_)
  have hb := Nat.mod_lt (L.fld b i) (Nat.two_pow_pos (L.width i - 1))
  rw [wf.fld_not_conf b hi, complement_mod_two_pow (L.fld_lt b i) (Nat.sub_le _ _)]
  omega

/-- Settles O32: both closed forms add the complement with a carry in, one at each low bit, one by lending the top. -/
theorem subWrapClosedForms : Obligations.SubWrapClosedForms := fun _ a b wf =>
  ⟨wf.subWrap_eq_closed a b, wf.subWrap_eq_closed2 a b⟩

end Sys2Proof.Machine
end

section
/-! The saturating commands by their fields (R132 to R138): a clamped value lies in its field's range (R139), so that
`join` stores it as it is. -/

namespace Sys2Proof.Machine

variable {L : Layout}

theorem clamps_bounds (v : Int) (w : Nat) :
    -((2 ^ (w - 1) : Nat) : Int) ≤ clamps v w ∧ clamps v w ≤ ((2 ^ (w - 1) : Nat) : Int) - 1 := by
  have hpos := Nat.two_pow_pos (w - 1)
  unfold clamps
  omega

/-- A join of values that fit their fields holds them. -/
theorem Layout.WF.join_natCast_holds (wf : L.WF) {f : Nat → Int} {g : Nat → Nat} (hfg : ∀ i < L.n, f i = g i)
    (hlt : ∀ i < L.n, g i < 2 ^ L.width i) : L.Holds (L.join f) g :=
  (wf.join_holds f).congr fun i hi => by rw [hfg i hi, pattern_of_lt (hlt i hi)]

theorem Layout.WF.join_clamps_holdsSigned (wf : L.WF) {u v : Nat → Int} (huv : ∀ i < L.n, u i = v i) :
    L.HoldsSigned (L.join fun i => clamps (u i) (L.width i)) fun i => clamps (v i) (L.width i) := by
  refine ⟨wf.conf_join _, fun i hi => ?_⟩
  obtain ⟨hge, hle⟩ := clamps_bounds (u i) (L.width i)
  rw [wf.sfld_join _ hi hge hle, huv i hi]

theorem Layout.WF.addUnsignedSaturate_holds (wf : L.WF) (a b : Word) :
    L.Holds (L.addUnsignedSaturate a b) fun i => min (L.fld a i + L.fld b i) (2 ^ L.width i - 1) := by
  refine wf.join_natCast_holds (fun i hi => ?_) fun i _ => ?_
  · rw [wf.fld_conf a hi, wf.fld_conf b hi]
    have hpos := Nat.two_pow_pos (L.width i)
    omega
  · have hpos := Nat.two_pow_pos (L.width i)
    omega

theorem Layout.WF.subUnsignedSaturate_holds (wf : L.WF) (a b : Word) :
    L.Holds (L.subUnsignedSaturate a b) fun i => L.fld a i - L.fld b i := by
  refine wf.join_natCast_holds (fun i hi => ?_) fun i _ => (Nat.sub_le _ _).trans_lt (L.fld_lt a i)
  rw [wf.fld_conf a hi, wf.fld_conf b hi]
  omega

theorem Layout.WF.addSignedSaturate_holdsSigned (wf : L.WF) (a b : Word) :
    L.HoldsSigned (L.addSignedSaturate a b) fun i => clamps (L.sfld a i + L.sfld b i) (L.width i) :=
  wf.join_clamps_holdsSigned fun i hi => by rw [wf.sfld_conf a hi, wf.sfld_conf b hi]

theorem Layout.WF.subSignedSaturate_holdsSigned (wf : L.WF) (a b : Word) :
    L.HoldsSigned (L.subSignedSaturate a b) fun i => clamps (L.sfld a i - L.sfld b i) (L.width i) :=
  wf.join_clamps_holdsSigned fun i hi => by rw [wf.sfld_conf a hi, wf.sfld_conf b hi]

/-- Settles O34: the smaller of the sum and `2^LW[i] - 1` fits field `i`. -/
theorem addUnsignedSaturateClamps : Obligations.AddUnsignedSaturateClamps := fun s hready =>
  ⟨_, hready.exec_of_body_ok rfl rfl, hready.wf.addUnsignedSaturate_holds s.ports.A s.ports.B⟩

/-- Settles O35: the difference stopped at 0 is no larger than the minuend, which fits field `i`. -/
theorem subUnsignedSaturateClamps : Obligations.SubUnsignedSaturateClamps := fun s hready =>
  ⟨_, hready.exec_of_body_ok rfl rfl, hready.wf.subUnsignedSaturate_holds s.ports.A s.ports.B⟩

/-- Settles O36: the clamped sum lies in the signed range of field `i`. -/
theorem addSignedSaturateClamps : Obligations.AddSignedSaturateClamps := fun s hready =>
  ⟨_, hready.exec_of_body_ok rfl rfl, hready.wf.addSignedSaturate_holdsSigned s.ports.A s.ports.B⟩

/-- Settles O37: the clamped difference lies in the signed range of field `i`. -/
theorem subSignedSaturateClamps : Obligations.SubSignedSaturateClamps := fun s hready =>
  ⟨_, hready.exec_of_body_ok rfl rfl, hready.wf.subSignedSaturate_holdsSigned s.ports.A s.ports.B⟩

end Sys2Proof.Machine
end

section
/-! Words made by ORing in a value for each flagged field: the saturation mask (R131), the low bits (R133) and the
borrow vector (R150). -/

namespace Sys2Proof.Machine

variable {L : Layout} {p q v : Word} {f g c : Nat → Nat} {i j : Nat}

theorem Layout.Holds.or (hp : L.Holds p f) (hq : L.Holds q g) : L.Holds (p ||| q) fun i => f i ||| g i :=
  ⟨by rw [L.conf_or, hp.1, hq.1], fun i hi => by rw [L.fld_or, hp.2 i hi, hq.2 i hi]⟩

theorem Layout.WF.conf_fieldMask (wf : L.WF) (hj : j < L.n) : L.conf (L.fieldMask j) = L.fieldMask j := by
  have hend := wf.end_le hj
  apply BitVec.eq_of_getLsbD_eq
  intro b _
  rw [wf.getLsbD_conf, wf.getLsbD_fieldMask hj, ← Bool.decide_and]
  exact decide_eq_decide.mpr (by omega)

theorem Layout.WF.fieldMask_holds (wf : L.WF) (hj : j < L.n) :
    L.Holds (L.fieldMask j) fun i => if i = j then 2 ^ L.width j - 1 else 0 := by
  refine ⟨wf.conf_fieldMask hj, fun i hi => Nat.eq_of_testBit_eq fun k => ?_⟩
  rw [L.testBit_fld, wf.getLsbD_fieldMask hj]
  by_cases hij : i = j
  · simp [hij, Nat.testBit_two_pow_sub_one]
  · simp only [hij, if_false, Nat.zero_testBit, ← Bool.decide_and, decide_eq_false_iff_not]
    rintro ⟨hk, hle, hlt⟩
    exact hij (wf.field_unique hi hj (Nat.le_add_right _ k) (by omega) hle hlt)

/-- A value moved up to the place of field `j` makes a word with that field alone. -/
theorem Layout.WF.shiftLeft_offset_holds (wf : L.WF) (hj : j < L.n) {y : Nat} (hy : y < 2 ^ L.width j) :
    L.Holds (BitVec.ofNat 64 (y <<< L.offset j)) fun i => if i = j then y else 0 := by
  have hmasked : (L.join fun _ => (y : Int)) &&& L.fieldMask j = BitVec.ofNat 64 (y <<< L.offset j) := by
    rw [wf.and_fieldMask _ hj, wf.fld_join _ hj, pattern_of_lt hy]
  rw [← hmasked]
  refine ((wf.fieldMask_holds hj).and_left _).congr fun i hi => ?_
  split_ifs with hij
  · rw [hij, wf.fld_join _ hj, pattern_of_lt hy, Nat.and_two_pow_sub_one_of_lt_two_pow hy]
  · exact Nat.and_zero _

theorem Layout.WF.topBit_holds (wf : L.WF) (hj : j < L.n) :
    L.Holds (BitVec.ofNat 64 (1 <<< L.top j)) fun i => if i = j then 2 ^ (L.width j - 1) else 0 := by
  have hwidth := wf.width_pos j hj
  have hplace : 1 <<< L.top j = 2 ^ (L.width j - 1) <<< L.offset j := by
    rw [wf.top_eq hj, Nat.one_shiftLeft, Nat.shiftLeft_eq, ← Nat.pow_add, Nat.add_comm]
  exact hplace ▸ wf.shiftLeft_offset_holds hj (Nat.pow_lt_pow_right (by omega) (by omega))

/-- A loop that ORs in, for each flagged field, a word with that field alone makes the word of those
fields. -/
theorem Layout.foldl_or_holds (L : Layout) {m : Nat} (hm : m ≤ L.n) {t : Nat → Prop} [DecidablePred t]
    {w : Nat → Word} (hw : ∀ j < L.n, L.Holds (w j) fun i => if i = j then c j else 0) :
    L.Holds ((List.range m).foldl (fun r i => if t i then r ||| w i else r) 0) fun i =>
      if i < m ∧ t i then c i else 0 := by
  induction m with
  | zero => simpa using L.zero_holds
  | succ m ih =>
    have hprev := ih (Nat.le_of_succ_le hm)
    rw [List.range_succ, List.foldl_append, List.foldl_cons, List.foldl_nil]
    split_ifs with ht
    · refine (hprev.or (hw m hm)).congr fun i _ => ?_
      by_cases him : i = m
      · simp [him, ht]
      · simp [him, show i < m + 1 ↔ i < m by omega]
    · refine hprev.congr fun i _ => ?_
      by_cases him : i = m
      · simp [him, ht]
      · simp [show i < m + 1 ↔ i < m by omega]

/-- Over all fields the loop flags what `t` flags. -/
theorem Layout.foldl_or_fields_holds (L : Layout) {t : Nat → Prop} [DecidablePred t] {w : Nat → Word}
    (hw : ∀ j < L.n, L.Holds (w j) fun i => if i = j then c j else 0) :
    L.Holds ((List.range L.n).foldl (fun r i => if t i then r ||| w i else r) 0) fun i => if t i then c i else 0 :=
  (L.foldl_or_holds le_rfl hw).congr fun i hi => by simp only [hi, true_and]

/-- The saturation mask is all ones in each flagged field (R131). -/
theorem Layout.WF.bcast_holds (wf : L.WF) (x : Word) :
    L.Holds (L.bcast x) fun i => if x.getLsbD (L.top i) then 2 ^ L.width i - 1 else 0 :=
  L.foldl_or_fields_holds fun _ => wf.fieldMask_holds

theorem Layout.WF.lowBits_holds (wf : L.WF) (v : Word) :
    L.Holds (L.lowBits v) fun i => if v.getLsbD (L.top i) then 1 else 0 :=
  L.foldl_or_fields_holds fun _ hj =>
    wf.shiftLeft_offset_holds hj (Nat.one_lt_two_pow (Nat.one_le_iff_ne_zero.mp (wf.width_pos _ hj)))

/-- The borrow vector is the top bit of each field in which `a` is the smaller (R150). -/
theorem Layout.WF.borrow_holds (wf : L.WF) (a b : Word) :
    L.Holds (L.borrow a b) fun i => if L.fld a i < L.fld b i then 2 ^ (L.width i - 1) else 0 :=
  L.foldl_or_fields_holds fun _ => wf.topBit_holds

theorem Layout.WF.getLsbD_top_borrow (wf : L.WF) (a b : Word) (hi : i < L.n) :
    (L.borrow a b).getLsbD (L.top i) = decide (L.fld a i < L.fld b i) := by
  have hpos := Nat.two_pow_pos (L.width i - 1)
  simp only [wf.getLsbD_top _ hi, (wf.borrow_holds a b).2 i hi, decide_eq_decide]
  split_ifs <;> omega

/-- A word with no bit outside `LHI` has in each field the top bit or nothing. -/
theorem Layout.WF.topBits_holds (wf : L.WF) (hv : v &&& ~~~L.LHI = 0) :
    L.Holds v fun i => if v.getLsbD (L.top i) then 2 ^ (L.width i - 1) else 0 := by
  have hmasked : v &&& L.LHI = v :=
    calc v &&& L.LHI = v &&& L.LHI ||| v &&& ~~~L.LHI := by rw [hv]; exact BitVec.or_zero.symm
      _ = v := by rw [← BitVec.and_or_distrib_left, BitVec.or_not_self, BitVec.and_allOnes]
  have hand := wf.LHI_holds.and_left v
  rw [hmasked] at hand
  refine hand.congr fun i hi => ?_
  have hwidth := wf.width_pos i hi
  rw [Nat.and_two_pow, L.testBit_fld, ← wf.top_eq hi]
  cases v.getLsbD (L.top i) <;> simp [show L.width i - 1 < L.width i by omega]

end Sys2Proof.Machine
end

section
/-! The saturation mask by shift (R133): a top bit, doubled, with the field's low bit taken away, is the whole field. -/

namespace Sys2Proof.Machine

variable {L : Layout} {v : Word}

/-- Below the top bit the low bit is taken away and the top bit added, and neither carries or borrows across fields. -/
theorem Layout.WF.bcast_eq_bcastByShift (wf : L.WF) (hv : v &&& ~~~L.LHI = 0) : L.bcast v = L.bcastByShift v := by
  have hpos (i : Nat) := Nat.two_pow_pos (L.width i - 1)
  have htop := wf.topBits_holds hv
  have hbelow := htop.sub wf (wf.lowBits_holds v) fun i _ => by
    have := hpos i
    split_ifs <;> omega
  have hmask := htop.add wf hbelow fun i hi => by
    have := hpos i
    have := wf.two_pow_width hi
    split_ifs <;> omega
  have hshift : L.bcastByShift v = v + (v - L.lowBits v) := by
    rw [Layout.bcastByShift, BitVec.shiftLeft_eq_mul_twoPow, show BitVec.twoPow 64 1 = 2 from rfl]
    ring
  rw [hshift]
  refine wf.eq_of_holds (wf.bcast_holds v) hmask fun i hi => ?_
  have := hpos i
  have := wf.two_pow_width hi
  split_ifs <;> omega

/-- The bits of a word that has one bit in each flagged field and no other. -/
theorem Layout.WF.getLsbD_iff_of_holds_flagged (wf : L.WF) {p : Word} {c : Nat → Nat} {t : Nat → Prop} [DecidablePred t]
    (hp : L.Holds p fun i => if t i then 2 ^ c i else 0) (hc : ∀ i < L.n, c i < L.width i) (b : Nat) :
    p.getLsbD b = true ↔ ∃ i < L.n, t i ∧ L.offset i + c i = b := by
  obtain ⟨hconf, hfld⟩ := hp
  have hbit : ∀ i < L.n, ∀ k < L.width i, p.getLsbD (L.offset i + k) = true ↔ t i ∧ c i = k := by
    intro i hi k hk
    have hfldbit : p.getLsbD (L.offset i + k) = (L.fld p i).testBit k := by simp [L.testBit_fld, hk]
    rw [hfldbit, hfld i hi]
    by_cases ht : t i
    · simp [ht, Nat.testBit_two_pow]
    · simp [ht]
  constructor
  · intro hb
    have hlt : b < L.LSUM.toNat := by
      rw [← hconf, wf.getLsbD_conf, Bool.and_eq_true, decide_eq_true_eq] at hb
      exact hb.right
    obtain ⟨i, hi, k, hk, rfl⟩ := wf.exists_field hlt
    obtain ⟨ht, rfl⟩ := (hbit i hi k hk).mp hb
    exact ⟨i, hi, ht, rfl⟩
  · rintro ⟨i, hi, ht, rfl⟩
    exact (hbit i hi (c i) (hc i hi)).mpr ⟨ht, rfl⟩

/-- With fields of one width `w`, each top bit is `w - 1` places above its field's low bit. -/
theorem Layout.WF.lowBits_eq_shiftRight (wf : L.WF) (hv : v &&& ~~~L.LHI = 0) {w : Nat}
    (hw : ∀ i < L.n, L.width i = w) : L.lowBits v = v >>> (w - 1) := by
  apply BitVec.eq_of_getLsbD_eq
  intro b _
  rw [Bool.eq_iff_iff, BitVec.getLsbD_ushiftRight,
    wf.getLsbD_iff_of_holds_flagged (c := fun _ => 0) (wf.lowBits_holds v) wf.width_pos,
    wf.getLsbD_iff_of_holds_flagged (wf.topBits_holds hv) fun i hi => Nat.sub_one_lt_of_lt (wf.width_pos i hi)]
  refine exists_congr fun i => and_congr_right fun hi => and_congr_right fun _ => ?_
  rw [hw i hi]
  omega

/-- Settles O40: the top bits double out of their fields, and no field borrows from another. -/
theorem saturationMaskByShift : Obligations.SaturationMaskByShift := fun _ _ wf hv =>
  ⟨wf.bcast_eq_bcastByShift hv, fun _ => wf.lowBits_eq_shiftRight hv⟩

end Sys2Proof.Machine
end

section
/-! The carry and signed-overflow vectors (R130, R135, R137), read at the top bit of each field. -/

namespace Sys2Proof.Machine

variable {L : Layout} {i : Nat}

theorem Layout.and_LHI_and_not_LHI (L : Layout) (p : Word) : p &&& L.LHI &&& ~~~L.LHI = 0 := by
  rw [BitVec.and_assoc]
  simp

/-- `LHI` keeps the top bits. -/
theorem Layout.WF.getLsbD_top_and_LHI (wf : L.WF) (p : Word) (hi : i < L.n) :
    (p &&& L.LHI).getLsbD (L.top i) = p.getLsbD (L.top i) := by
  rw [BitVec.getLsbD_and, wf.getLsbD_top L.LHI hi, wf.fld_LHI hi, decide_eq_true le_rfl, Bool.and_true]

theorem Layout.WF.getLsbD_top_not (wf : L.WF) (p : Word) (hi : i < L.n) :
    (~~~p).getLsbD (L.top i) = !p.getLsbD (L.top i) := by
  have hend := wf.end_le_64 hi
  have hwidth := wf.width_pos i hi
  rw [BitVec.getLsbD_not, decide_eq_true (by rw [wf.top_eq hi]; omega), Bool.true_and]

/-- A field is negative when its top bit is set. -/
theorem Layout.WF.getLsbD_top_eq_sign (wf : L.WF) (p : Word) (hi : i < L.n) :
    p.getLsbD (L.top i) = decide (L.sfld p i < 0) := by
  have hlt := L.fld_lt p i
  rw [wf.getLsbD_top p hi, decide_eq_decide, Layout.sfld, sgn]
  split_ifs <;> omega

/-- The carry out of a field is the majority of its operands' top bits and the carry into them, which the sum shows
(R130). -/
theorem Layout.WF.getLsbD_top_carry (wf : L.WF) (a b : Word) (hi : i < L.n) :
    (L.carry a b).getLsbD (L.top i) = decide (2 ^ L.width i ≤ L.fld a i + L.fld b i) := by
  have hwidth := wf.two_pow_width hi
  have ha := L.fld_lt a i
  have hb := L.fld_lt b i
  have hsum : L.fld (L.wrapSum a b) i = if 2 ^ L.width i ≤ L.fld a i + L.fld b i
      then L.fld a i + L.fld b i - 2 ^ L.width i else L.fld a i + L.fld b i := by
    rw [Layout.wrapSum, wf.fld_join _ hi, pattern_natCast, Nat.add_mod_eq_ite, Nat.mod_eq_of_lt ha, Nat.mod_eq_of_lt hb]
  rw [Layout.carry, wf.getLsbD_top_and_LHI _ hi, Bool.eq_iff_iff]
  simp only [BitVec.getLsbD_and, BitVec.getLsbD_or, wf.getLsbD_top_not _ hi, wf.getLsbD_top a hi, wf.getLsbD_top b hi,
    wf.getLsbD_top (L.wrapSum a b) hi, hsum, Bool.or_eq_true, Bool.and_eq_true, Bool.not_eq_true', decide_eq_true_eq,
    decide_eq_false_iff_not]
  split_ifs <;> omega

/-- Settles O38: at a field's top the vector is the carry out of a full adder. -/
theorem carryVectorMarksOverflow : Obligations.CarryVectorMarksOverflow := by
  intro L a b wf _ _
  refine ⟨fun i hi => ?_, L.and_LHI_and_not_LHI _⟩
  rw [wf.getLsbD_top_carry a b hi, decide_eq_true_eq]

/-- `v` lies outside the signed range of a field of width `w` (R139). -/
abbrev Overflows (v : Int) (w : Nat) : Prop :=
  v < -((2 ^ (w - 1) : Nat) : Int) ∨ ((2 ^ (w - 1) : Nat) : Int) - 1 < v

theorem pattern_congr {u v : Int} {w : Nat} (h : u ≡ v [ZMOD ((2 ^ w : Nat) : Int)]) : pattern u w = pattern v w := by
  rw [pattern, pattern, h]

/-- The signed and the unsigned reading of a field differ by a multiple of `2^LW[i]`. -/
theorem Layout.sfld_modEq_fld (L : Layout) (p : Word) (i : Nat) :
    L.sfld p i ≡ (L.fld p i : Int) [ZMOD ((2 ^ L.width i : Nat) : Int)] := by
  rw [Layout.sfld, sgn]
  split_ifs
  · exact Int.sub_modulus_modEq_iff.mpr rfl
  · exact rfl

/-- The wrapping sum holds the exact signed sums, wrapped (R135). -/
theorem Layout.WF.wrapSum_holds_signed (wf : L.WF) (a b : Word) :
    L.Holds (L.wrapSum a b) fun i => pattern (L.sfld a i + L.sfld b i) (L.width i) :=
  (wf.join_holds _).congr fun i _ => by
    push_cast
    exact (pattern_congr ((L.sfld_modEq_fld a i).add (L.sfld_modEq_fld b i))).symm

/-- The wrapping difference holds the exact signed differences, wrapped (R137). -/
theorem Layout.WF.wrapDiff_holds_signed (wf : L.WF) (a b : Word) :
    L.Holds (L.wrapDiff a b) fun i => pattern (L.sfld a i - L.sfld b i) (L.width i) :=
  (wf.join_holds _).congr fun i _ =>
    (pattern_congr ((L.sfld_modEq_fld a i).sub (L.sfld_modEq_fld b i))).symm

/-- Wrapping turns the sign over exactly when the value overflows. -/
theorem Layout.WF.getLsbD_top_of_holds_wrapped (wf : L.WF) {r : Word} {v : Nat → Int}
    (hr : L.Holds r fun i => pattern (v i) (L.width i)) (hi : i < L.n)
    (hge : -((2 ^ L.width i : Nat) : Int) ≤ v i) (hlt : v i < ((2 ^ L.width i : Nat) : Int)) :
    r.getLsbD (L.top i) = decide (v i < 0 ↔ ¬ Overflows (v i) (L.width i)) := by
  have hwidth := wf.two_pow_width hi
  have hfld : (L.fld r i : Int) = v i % ((2 ^ L.width i : Nat) : Int) := by rw [hr.2 i hi, pattern_cast]
  have hmod : v i % ((2 ^ L.width i : Nat) : Int) = if v i < 0 then v i + ((2 ^ L.width i : Nat) : Int) else v i := by
    split_ifs with hneg
    · rw [← Int.add_emod_right, Int.emod_eq_of_lt (by omega) (by omega)]
    · exact Int.emod_eq_of_lt (by omega) hlt
  rw [wf.getLsbD_top r hi, decide_eq_decide]
  rw [hmod] at hfld
  split_ifs at hfld <;> omega

theorem Layout.WF.getLsbD_top_wrapSum (wf : L.WF) (a b : Word) (hi : i < L.n) :
    (L.wrapSum a b).getLsbD (L.top i) =
      decide (L.sfld a i + L.sfld b i < 0 ↔ ¬ Overflows (L.sfld a i + L.sfld b i) (L.width i)) := by
  obtain ⟨ha, ha'⟩ := wf.sfld_bounds a hi
  obtain ⟨hb, hb'⟩ := wf.sfld_bounds b hi
  have hwidth := wf.two_pow_width hi
  exact wf.getLsbD_top_of_holds_wrapped (wf.wrapSum_holds_signed a b) hi (by omega) (by omega)

theorem Layout.WF.getLsbD_top_wrapDiff (wf : L.WF) (a b : Word) (hi : i < L.n) :
    (L.wrapDiff a b).getLsbD (L.top i) =
      decide (L.sfld a i - L.sfld b i < 0 ↔ ¬ Overflows (L.sfld a i - L.sfld b i) (L.width i)) := by
  obtain ⟨ha, ha'⟩ := wf.sfld_bounds a hi
  obtain ⟨hb, hb'⟩ := wf.sfld_bounds b hi
  have hwidth := wf.two_pow_width hi
  exact wf.getLsbD_top_of_holds_wrapped (wf.wrapDiff_holds_signed a b) hi (by omega) (by omega)

/-- Operands of one sign whose sum has the other (R135). -/
theorem Layout.WF.getLsbD_top_ovadd (wf : L.WF) (a b : Word) (hi : i < L.n) :
    (L.ovadd a b).getLsbD (L.top i) = decide (Overflows (L.sfld a i + L.sfld b i) (L.width i)) := by
  obtain ⟨ha, ha'⟩ := wf.sfld_bounds a hi
  obtain ⟨hb, hb'⟩ := wf.sfld_bounds b hi
  rw [Layout.ovadd, wf.getLsbD_top_and_LHI _ hi, Bool.eq_iff_iff]
  simp only [BitVec.getLsbD_and, BitVec.getLsbD_xor, wf.getLsbD_top_not _ hi, wf.getLsbD_top_wrapSum a b hi,
    wf.getLsbD_top_eq_sign a hi, wf.getLsbD_top_eq_sign b hi, Bool.and_eq_true, Bool.not_eq_true', Bool.eq_false_iff,
    Bool.xor_iff_ne, ne_eq, decide_eq_decide, decide_eq_true_eq]
  omega

/-- Operands of two signs whose difference has the sign of the subtrahend (R137). -/
theorem Layout.WF.getLsbD_top_ovsub (wf : L.WF) (a b : Word) (hi : i < L.n) :
    (L.ovsub a b).getLsbD (L.top i) = decide (Overflows (L.sfld a i - L.sfld b i) (L.width i)) := by
  obtain ⟨ha, ha'⟩ := wf.sfld_bounds a hi
  obtain ⟨hb, hb'⟩ := wf.sfld_bounds b hi
  rw [Layout.ovsub, wf.getLsbD_top_and_LHI _ hi, Bool.eq_iff_iff]
  simp only [BitVec.getLsbD_and, BitVec.getLsbD_or, wf.getLsbD_top_not _ hi, wf.getLsbD_top_wrapDiff a b hi,
    wf.getLsbD_top_eq_sign a hi, wf.getLsbD_top_eq_sign b hi, Bool.or_eq_true, Bool.and_eq_true, Bool.not_eq_true',
    Bool.or_eq_false_iff, decide_eq_true_eq, decide_eq_false_iff_not]
  omega

/-- Settles O39: the signs of the operands and of the wrapped result tell an overflow. -/
theorem signedOverflowVectors : Obligations.SignedOverflowVectors := by
  intro L a b wf _ _
  refine ⟨fun i hi => ?_, L.and_LHI_and_not_LHI _, fun i hi => ?_, L.and_LHI_and_not_LHI _⟩
  · rw [wf.getLsbD_top_ovadd a b hi, decide_eq_true_eq]
  · rw [wf.getLsbD_top_ovsub a b hi, decide_eq_true_eq]

end Sys2Proof.Machine
end

section
/-! The closed forms of the unsigned saturating commands (R132, R134): the saturation mask sets or clears the flagged
fields of the wrapped result. -/

namespace Sys2Proof.Machine

variable {L : Layout} {p : Word} {f : Nat → Nat} {i : Nat}

theorem or_two_pow_sub_one_of_lt {x w : Nat} (hx : x < 2 ^ w) : x ||| (2 ^ w - 1) = 2 ^ w - 1 := by
  refine Nat.le_antisymm (Nat.le_sub_one_of_lt (Nat.or_lt_two_pow hx ?_)) Nat.right_le_or
  have := Nat.two_pow_pos w
  omega

/-- ORing in the saturation mask fills the flagged fields. -/
theorem Layout.Holds.or_bcast (hp : L.Holds p f) (wf : L.WF) (x : Word) :
    L.Holds (p ||| L.bcast x) fun i => if x.getLsbD (L.top i) then 2 ^ L.width i - 1 else f i :=
  (hp.or (wf.bcast_holds x)).congr fun i hi => by
    split_ifs
    · exact or_two_pow_sub_one_of_lt (hp.2 i hi ▸ L.fld_lt p i)
    · exact Nat.or_zero _

/-- ANDing with the complement of the saturation mask clears the flagged fields. -/
theorem Layout.Holds.and_not_bcast (hp : L.Holds p f) (wf : L.WF) (x : Word) :
    L.Holds (p &&& ~~~L.bcast x) fun i => if x.getLsbD (L.top i) then 0 else f i := by
  rw [BitVec.and_comm]
  refine (hp.and_left _).congr fun i hi => ?_
  have hlt : f i < 2 ^ L.width i := hp.2 i hi ▸ L.fld_lt p i
  simp only [wf.fld_not _ hi, (wf.bcast_holds x).2 i hi]
  split_ifs
  · rw [Nat.sub_self, Nat.zero_and]
  · rw [Nat.sub_zero, Nat.and_comm, Nat.and_two_pow_sub_one_of_lt_two_pow hlt]

/-- The complement of a word within its fields. -/
theorem Layout.WF.not_and_LVM_holds (wf : L.WF) (p : Word) :
    L.Holds (~~~p &&& L.LVM) fun i => 2 ^ L.width i - 1 - L.fld p i :=
  (wf.LVM_holds.and_left _).congr fun i hi => by
    rw [Nat.and_two_pow_sub_one_of_lt_two_pow (L.fld_lt _ i), wf.fld_not _ hi]

theorem Layout.WF.addUnsignedSaturate_eq_closed (wf : L.WF) (a b : Word) :
    L.addUnsignedSaturate a b = L.addUnsignedSaturateClosed a b := by
  refine wf.eq_of_holds (wf.addUnsignedSaturate_holds a b) ((wf.addWrap_holds a b).or_bcast wf _) fun i hi => ?_
  rw [wf.getLsbD_top_carry _ _ hi, wf.fld_conf a hi, wf.fld_conf b hi]
  simp only [decide_eq_true_eq]
  split_ifs with hcarry
  · omega
  · rw [Nat.mod_eq_of_lt (by omega)]
    omega

theorem Layout.WF.subUnsignedSaturate_eq_closed (wf : L.WF) (a b : Word) :
    L.subUnsignedSaturate a b = L.subUnsignedSaturateClosed a b := by
  refine wf.eq_of_holds (wf.subUnsignedSaturate_holds a b) ((wf.subWrap_holds a b).and_not_bcast wf _) fun i hi => ?_
  have ha := L.fld_lt a i
  have hb := L.fld_lt b i
  rw [wf.getLsbD_top_borrow _ _ hi, wf.fld_conf a hi, wf.fld_conf b hi]
  simp only [decide_eq_true_eq]
  split_ifs with hless
  · omega
  · rw [show L.fld a i + (2 ^ L.width i - L.fld b i) = L.fld a i - L.fld b i + 2 ^ L.width i by omega,
      Nat.add_mod_right, Nat.mod_eq_of_lt (by omega)]

/-- In each field `max (x - y) 0` is the complement of `(2^w - 1 - x) + y` clamped at `2^w - 1`. -/
theorem Layout.WF.subUnsignedSaturate_eq_closed2 (wf : L.WF) (a b : Word) :
    L.subUnsignedSaturate a b = L.subUnsignedSaturateClosed2 a b := by
  refine wf.eq_of_holds (wf.subUnsignedSaturate_holds a b) (wf.not_and_LVM_holds _) fun i hi => ?_
  have ha := L.fld_lt a i
  simp only [(wf.addUnsignedSaturate_holds _ b).2 i hi, (wf.not_and_LVM_holds _).2 i hi, wf.fld_conf a hi]
  omega

/-- Settles O41: each closed form holds the same value as the command in every field. -/
theorem unsignedSaturateClosedForms : Obligations.UnsignedSaturateClosedForms := fun _ a b wf =>
  ⟨wf.addUnsignedSaturate_eq_closed a b, wf.subUnsignedSaturate_eq_closed a b, wf.subUnsignedSaturate_eq_closed2 a b⟩

end Sys2Proof.Machine
end

section
/-! The closed forms of the signed saturating commands (R136, R138): a flagged field becomes the maximum or the minimum
as the select says whether the exact value is too large; the other fields keep the wrapped value, which is exact. -/

namespace Sys2Proof.Machine

variable {L : Layout} {r ov large : Word} {v : Nat → Int} {i : Nat}

theorem clamps_of_not_overflows {v : Int} {w : Nat} (h : ¬ Overflows v w) : clamps v w = v := by
  unfold clamps
  omega

/-- Clamping an overflow gives the maximum or the minimum, by the sign of the exact value. -/
theorem pattern_clamps_of_overflows {v : Int} {w : Nat} (hw : 0 < w) (h : Overflows v w) :
    pattern (clamps v w) w = if 0 ≤ v then 2 ^ (w - 1) - 1 else 2 ^ (w - 1) := by
  have hwidth := Nat.two_pow_pred_add_two_pow_pred hw
  have hpos := Nat.two_pow_pos (w - 1)
  split_ifs with hsign
  · have hmax : clamps v w = ((2 ^ (w - 1) - 1 : Nat) : Int) := by
      unfold clamps
      omega
    rw [hmax, pattern_of_lt (by omega)]
  · have hmin : clamps v w = ((0 : Nat) : Int) - ((2 ^ (w - 1) : Nat) : Int) := by
      unfold clamps
      omega
    rw [hmin, pattern_natCast_sub (by omega), Nat.mod_eq_of_lt (by omega)]
    omega

theorem two_pow_pred_xor_two_pow_sub_one {w : Nat} (hw : 0 < w) : 2 ^ (w - 1) ^^^ (2 ^ w - 1) = 2 ^ (w - 1) - 1 := by
  apply Nat.eq_of_testBit_eq
  intro k
  rw [Nat.testBit_xor, Nat.testBit_two_pow, Nat.testBit_two_pow_sub_one, Nat.testBit_two_pow_sub_one, Bool.eq_iff_iff,
    Bool.xor_iff_ne, ne_eq, decide_eq_decide, decide_eq_true_eq]
  omega

/-- The select gives, in a flagged field, the maximum `0111..1` where `large` has the top bit set and the minimum
`1000..0` where it has not. -/
theorem Layout.WF.saturateSelect_holds (wf : L.WF) {f : Nat → Nat} (hr : L.Holds r f) (hov : ov &&& ~~~L.LHI = 0)
    (large : Word) :
    L.Holds (L.saturateSelect r ov large) fun i =>
      if ov.getLsbD (L.top i) then
        if large.getLsbD (L.top i) then 2 ^ (L.width i - 1) - 1 else 2 ^ (L.width i - 1)
      else f i :=
  ((hr.and_not_bcast wf ov).or ((wf.topBits_holds hov).xor (wf.bcast_holds _))).congr fun i hi => by
    rw [BitVec.getLsbD_and]
    cases ov.getLsbD (L.top i) with
    | false => simp
    | true =>
      cases large.getLsbD (L.top i) with
      | false => simp
      | true => simpa using two_pow_pred_xor_two_pow_sub_one (wf.width_pos i hi)

/-- The select clamps a wrapped result, given a vector that marks where the exact values `v` overflow, and a word whose
top bits there say which are too large. -/
theorem Layout.WF.join_clamps_eq_saturateSelect (wf : L.WF) (hr : L.Holds r fun i => pattern (v i) (L.width i))
    (hov : ov &&& ~~~L.LHI = 0) (hmark : ∀ i < L.n, ov.getLsbD (L.top i) = decide (Overflows (v i) (L.width i)))
    (hlarge : ∀ i < L.n, Overflows (v i) (L.width i) → large.getLsbD (L.top i) = decide (0 ≤ v i)) :
    (L.join fun i => clamps (v i) (L.width i)) = L.saturateSelect r ov large := by
  refine wf.eq_of_holds (wf.join_holds _) (wf.saturateSelect_holds hr hov large) fun i hi => ?_
  simp only [hmark i hi, decide_eq_true_eq]
  by_cases hover : Overflows (v i) (L.width i)
  · rw [if_pos hover, pattern_clamps_of_overflows (wf.width_pos i hi) hover, hlarge i hi hover]
    simp only [decide_eq_true_eq]
  · rw [if_neg hover, clamps_of_not_overflows hover]

/-- An overflowed result has the wrong sign. -/
theorem top_eq_of_overflows {top : Bool} {v : Int} {w : Nat} (h : Overflows v w)
    (htop : top = decide (v < 0 ↔ ¬ Overflows v w)) : top = decide (0 ≤ v) := by
  rw [htop, decide_eq_decide]
  omega

/-- The first operand, at most half the field's range away from the exact value, has the sign of an overflow. -/
theorem Layout.WF.getLsbD_top_not_of_overflows (wf : L.WF) (a : Word) (hi : i < L.n) {v : Int}
    (h : Overflows v (L.width i)) (hge : -((2 ^ (L.width i - 1) : Nat) : Int) ≤ v - L.sfld a i)
    (hle : v - L.sfld a i ≤ ((2 ^ (L.width i - 1) : Nat) : Int)) :
    (~~~a).getLsbD (L.top i) = decide (0 ≤ v) := by
  rw [wf.getLsbD_top_not a hi, wf.getLsbD_top_eq_sign a hi, ← decide_not, decide_eq_decide]
  omega

theorem Layout.WF.addSignedSaturate_eq_closed (wf : L.WF) (a b : Word)
    (hlarge : ∀ i < L.n, Overflows (L.sfld (L.conf a) i + L.sfld (L.conf b) i) (L.width i) →
      large.getLsbD (L.top i) = decide (0 ≤ L.sfld (L.conf a) i + L.sfld (L.conf b) i)) :
    L.addSignedSaturate a b = L.addSignedSaturateClosed a b large :=
  wf.join_clamps_eq_saturateSelect (wf.wrapSum_holds_signed _ _) (L.and_LHI_and_not_LHI _)
    (fun _ => wf.getLsbD_top_ovadd _ _) hlarge

theorem Layout.WF.subSignedSaturate_eq_closed (wf : L.WF) (a b : Word)
    (hlarge : ∀ i < L.n, Overflows (L.sfld (L.conf a) i - L.sfld (L.conf b) i) (L.width i) →
      large.getLsbD (L.top i) = decide (0 ≤ L.sfld (L.conf a) i - L.sfld (L.conf b) i)) :
    L.subSignedSaturate a b = L.subSignedSaturateClosed a b large :=
  wf.join_clamps_eq_saturateSelect (wf.wrapDiff_holds_signed _ _) (L.and_LHI_and_not_LHI _)
    (fun _ => wf.getLsbD_top_ovsub _ _) hlarge

/-- Settles O42: of an overflow, the wrapped result and the complement of the first operand both say whether the exact
value is too large. -/
theorem signedSaturateClosedForms : Obligations.SignedSaturateClosedForms := by
  intro L a b wf
  refine ⟨wf.addSignedSaturate_eq_closed a b fun i hi h => ?_, wf.addSignedSaturate_eq_closed a b fun i hi h => ?_,
    wf.subSignedSaturate_eq_closed a b fun i hi h => ?_, wf.subSignedSaturate_eq_closed a b fun i hi h => ?_⟩
  · exact top_eq_of_overflows h (wf.getLsbD_top_wrapSum _ _ hi)
  · obtain ⟨hge, hle⟩ := wf.sfld_bounds (L.conf b) hi
    exact wf.getLsbD_top_not_of_overflows _ hi h (by omega) (by omega)
  · exact top_eq_of_overflows h (wf.getLsbD_top_wrapDiff _ _ hi)
  · obtain ⟨hge, hle⟩ := wf.sfld_bounds (L.conf b) hi
    exact wf.getLsbD_top_not_of_overflows _ hi h (by omega) (by omega)

end Sys2Proof.Machine
end

section
/-! The min/max commands by their fields (R152 to R155): the selected value is one of the operands' fields, so that it
fits its field. -/

namespace Sys2Proof.Machine

variable {L : Layout}

theorem Layout.WF.minUnsigned_holds (wf : L.WF) (a b : Word) :
    L.Holds (L.minUnsigned a b) fun i => min (L.fld a i) (L.fld b i) :=
  wf.join_natCast_holds (fun i hi => by rw [wf.fld_conf a hi, wf.fld_conf b hi, Nat.cast_min])
    fun i _ => min_lt_of_left_lt (L.fld_lt a i)

theorem Layout.WF.maxUnsigned_holds (wf : L.WF) (a b : Word) :
    L.Holds (L.maxUnsigned a b) fun i => max (L.fld a i) (L.fld b i) :=
  wf.join_natCast_holds (fun i hi => by rw [wf.fld_conf a hi, wf.fld_conf b hi, Nat.cast_max])
    fun i _ => max_lt (L.fld_lt a i) (L.fld_lt b i)

/-- A join that chooses in each field one of two signed fields holds what it chooses. -/
theorem Layout.WF.join_holdsSigned_of_choice (wf : L.WF) {a b : Word} {u v : Nat → Int} (huv : ∀ i < L.n, u i = v i)
    (hchoice : ∀ i < L.n, v i = L.sfld a i ∨ v i = L.sfld b i) : L.HoldsSigned (L.join u) v := by
  refine ⟨wf.conf_join _, fun i hi => ?_⟩
  obtain ⟨ha, ha'⟩ := wf.sfld_bounds a hi
  obtain ⟨hb, hb'⟩ := wf.sfld_bounds b hi
  have hv := hchoice i hi
  rw [← huv i hi] at hv ⊢
  exact wf.sfld_join u hi (by omega) (by omega)

theorem Layout.WF.minSigned_holdsSigned (wf : L.WF) (a b : Word) :
    L.HoldsSigned (L.minSigned a b) fun i => min (L.sfld a i) (L.sfld b i) :=
  wf.join_holdsSigned_of_choice (fun i hi => by rw [wf.sfld_conf a hi, wf.sfld_conf b hi]) fun _ _ => min_choice _ _

theorem Layout.WF.maxSigned_holdsSigned (wf : L.WF) (a b : Word) :
    L.HoldsSigned (L.maxSigned a b) fun i => max (L.sfld a i) (L.sfld b i) :=
  wf.join_holdsSigned_of_choice (fun i hi => by rw [wf.sfld_conf a hi, wf.sfld_conf b hi]) fun _ _ => max_choice _ _

/-- Settles O43: both the smaller and the larger of two fields fit the field. -/
theorem unsignedMinMaxSelectsField : Obligations.UnsignedMinMaxSelectsField := fun s hready =>
  ⟨⟨_, hready.exec_of_body_ok rfl rfl, hready.wf.minUnsigned_holds s.ports.A s.ports.B⟩,
    ⟨_, hready.exec_of_body_ok rfl rfl, hready.wf.maxUnsigned_holds s.ports.A s.ports.B⟩⟩

/-- Settles O44: minimum and maximum choose one of two values in the signed range of the field. -/
theorem signedMinMaxSelectsField : Obligations.SignedMinMaxSelectsField := fun s hready =>
  ⟨⟨_, hready.exec_of_body_ok rfl rfl, hready.wf.minSigned_holdsSigned s.ports.A s.ports.B⟩,
    ⟨_, hready.exec_of_body_ok rfl rfl, hready.wf.maxSigned_holdsSigned s.ports.A s.ports.B⟩⟩

end Sys2Proof.Machine
end

section
/-! The formula of the borrow vector (R150), read at the top bit of each field. -/

namespace Sys2Proof.Machine

variable {L : Layout} {i : Nat}

/-- The wrapping difference, by whether the field borrows (R121). -/
theorem Layout.WF.fld_wrapDiff (wf : L.WF) (a b : Word) (hi : i < L.n) :
    L.fld (L.wrapDiff a b) i =
      if L.fld a i < L.fld b i then L.fld a i + (2 ^ L.width i - L.fld b i) else L.fld a i - L.fld b i := by
  have ha := L.fld_lt a i
  have hb := L.fld_lt b i
  rw [Layout.wrapDiff, wf.fld_join _ hi]
  split_ifs with hless
  · rw [pattern_natCast_sub hb.le, Nat.mod_eq_of_lt (by omega)]
  · rw [← Nat.cast_sub (Nat.le_of_not_lt hless), pattern_of_lt (by omega)]

/-- The borrow out of a field: the operands' top bits tell which is smaller where they differ, and the difference's
does where they agree (R150). -/
theorem Layout.WF.getLsbD_top_borrowFormula (wf : L.WF) (a b : Word) (hi : i < L.n) :
    (L.borrowFormula a b).getLsbD (L.top i) = decide (L.fld a i < L.fld b i) := by
  have hwidth := wf.two_pow_width hi
  have ha := L.fld_lt a i
  have hb := L.fld_lt b i
  rw [Layout.borrowFormula, wf.getLsbD_top_and_LHI _ hi, Bool.eq_iff_iff]
  simp only [BitVec.getLsbD_and, BitVec.getLsbD_or, BitVec.getLsbD_xor, wf.getLsbD_top_not _ hi, wf.getLsbD_top a hi,
    wf.getLsbD_top b hi, wf.getLsbD_top (L.wrapDiff a b) hi, wf.fld_wrapDiff a b hi, Bool.or_eq_true,
    Bool.and_eq_true, Bool.not_eq_true', Bool.eq_false_iff, Bool.xor_iff_ne, ne_eq, decide_eq_decide,
    decide_eq_true_eq]
  split_ifs <;> omega

theorem Layout.WF.borrow_eq_borrowFormula (wf : L.WF) (a b : Word) : L.borrow a b = L.borrowFormula a b :=
  wf.eq_of_holds (wf.borrow_holds a b) (wf.topBits_holds (L.and_LHI_and_not_LHI _)) fun i hi => by
    rw [wf.getLsbD_top_borrowFormula a b hi]
    simp only [decide_eq_true_eq]

/-- Settles O45: the comparison and the formula flag the same fields. -/
theorem borrowVectorMarksLess : Obligations.BorrowVectorMarksLess := by
  intro L a b wf _ _
  refine ⟨fun i hi => ?_, ?_, wf.borrow_eq_borrowFormula a b⟩
  · rw [wf.getLsbD_top_borrow a b hi, decide_eq_true_eq]
  · rw [wf.borrow_eq_borrowFormula]
    exact L.and_LHI_and_not_LHI _

end Sys2Proof.Machine
end

section
/-! The constructions of the min/max commands (R152 to R155) and what the pair keeps (R156). Both are shown for any
reading of the fields as integers `u`, `v` from whose patterns the operands are built, unsigned or signed. -/

namespace Sys2Proof.Machine

variable {L : Layout} {p q a b x : Word} {f g : Nat → Nat} {u v : Nat → Int} {i : Nat}

/-- The select under a broadcast vector takes each flagged field from `p` and the others from `q` (R151). -/
theorem Layout.Holds.select_bcast (hp : L.Holds p f) (hq : L.Holds q g) (wf : L.WF) (x : Word) :
    L.Holds (L.select (L.bcast x) p q) fun i => if x.getLsbD (L.top i) then f i else g i := by
  have hrest := hq.and_not_bcast wf x
  have hconf : q &&& ~~~L.bcast x &&& L.LVM = q &&& ~~~L.bcast x := hrest.1
  rw [Layout.select, hconf]
  refine (((wf.bcast_holds x).and_left p).or hrest).congr fun i hi => ?_
  have hlt : f i < 2 ^ L.width i := hp.2 i hi ▸ L.fld_lt p i
  rw [hp.2 i hi]
  split_ifs
  · rw [Nat.and_two_pow_sub_one_of_lt_two_pow hlt, Nat.or_zero]
  · rw [Nat.and_zero, Nat.zero_or]

theorem Layout.holds_pattern_fld (ha : L.conf a = a) : L.Holds a fun i => pattern (L.fld a i) (L.width i) :=
  ⟨ha, fun i _ => (pattern_of_lt (L.fld_lt a i)).symm⟩

theorem Layout.holds_pattern_sfld (ha : L.conf a = a) : L.Holds a fun i => pattern (L.sfld a i) (L.width i) :=
  ⟨ha, fun i _ => (pattern_of_lt (L.fld_lt a i)).symm.trans (pattern_congr (L.sfld_modEq_fld a i)).symm⟩

/-- A vector that marks where the first operand is smaller selects the minimum. -/
theorem Layout.WF.join_min_eq_select (wf : L.WF) (ha : L.Holds a fun i => pattern (u i) (L.width i))
    (hb : L.Holds b fun i => pattern (v i) (L.width i))
    (hmark : ∀ i < L.n, x.getLsbD (L.top i) = decide (u i < v i)) :
    (L.join fun i => min (u i) (v i)) = L.select (L.bcast x) a b := by
  refine wf.eq_of_holds (wf.join_holds _) (ha.select_bcast hb wf x) fun i hi => ?_
  simp only [hmark i hi, decide_eq_true_eq]
  split_ifs with hless
  · rw [min_eq_left hless.le]
  · rw [min_eq_right (le_of_not_gt hless)]

/-- A vector that marks where the second operand is smaller selects the maximum. -/
theorem Layout.WF.join_max_eq_select (wf : L.WF) (ha : L.Holds a fun i => pattern (u i) (L.width i))
    (hb : L.Holds b fun i => pattern (v i) (L.width i))
    (hmark : ∀ i < L.n, x.getLsbD (L.top i) = decide (v i < u i)) :
    (L.join fun i => max (u i) (v i)) = L.select (L.bcast x) a b := by
  refine wf.eq_of_holds (wf.join_holds _) (ha.select_bcast hb wf x) fun i hi => ?_
  simp only [hmark i hi, decide_eq_true_eq]
  split_ifs with hless
  · rw [max_eq_left hless.le]
  · rw [max_eq_right (le_of_not_gt hless)]

theorem Layout.WF.getLsbD_top_borrow_natCast (wf : L.WF) (a b : Word) (hi : i < L.n) :
    (L.borrow a b).getLsbD (L.top i) = decide ((L.fld a i : Int) < (L.fld b i : Int)) := by
  rw [wf.getLsbD_top_borrow a b hi, decide_eq_decide, Nat.cast_lt]

/-- Flipping a field's top bit moves its signed range up to begin at 0 (R154). -/
theorem Layout.WF.fld_xor_LHI (wf : L.WF) (p : Word) (hi : i < L.n) :
    (L.fld (p ^^^ L.LHI) i : Int) = L.sfld p i + ((2 ^ (L.width i - 1) : Nat) : Int) := by
  obtain ⟨hge, hle⟩ := wf.sfld_bounds p hi
  have hwidth := wf.two_pow_width hi
  have hlt := L.fld_lt (p ^^^ L.LHI) i
  have hflip : L.fld (p ^^^ L.LHI) i ≡ 2 ^ (L.width i - 1) + L.fld p i [MOD 2 ^ L.width i] := by
    have h := xor_two_pow_modEq (L.fld p i) (L.width i - 1)
    rwa [Nat.sub_add_cancel (wf.width_pos i hi), ← wf.fld_LHI hi, ← L.fld_xor, wf.fld_LHI hi] at h
  have hmod : (L.fld (p ^^^ L.LHI) i : Int) ≡ L.sfld p i + ((2 ^ (L.width i - 1) : Nat) : Int)
      [ZMOD ((2 ^ L.width i : Nat) : Int)] :=
    calc (L.fld (p ^^^ L.LHI) i : Int)
        ≡ ((2 ^ (L.width i - 1) + L.fld p i : Nat) : Int) [ZMOD ((2 ^ L.width i : Nat) : Int)] :=
          Int.natCast_modEq_iff.mpr hflip
      _ = (L.fld p i : Int) + ((2 ^ (L.width i - 1) : Nat) : Int) := by rw [Nat.cast_add, Int.add_comm]
      _ ≡ _ [ZMOD ((2 ^ L.width i : Nat) : Int)] := (L.sfld_modEq_fld p i).symm.add_right _
  rwa [Int.ModEq, Int.emod_eq_of_lt (by omega) (by omega), Int.emod_eq_of_lt (by omega) (by omega)] at hmod

/-- The borrow of the sign-flipped operands compares the signed fields (R154). -/
theorem Layout.WF.getLsbD_top_borrow_xor_LHI (wf : L.WF) (a b : Word) (hi : i < L.n) :
    (L.borrow (a ^^^ L.LHI) (b ^^^ L.LHI)).getLsbD (L.top i) = decide (L.sfld a i < L.sfld b i) := by
  rw [wf.getLsbD_top_borrow_natCast _ _ hi, wf.fld_xor_LHI a hi, wf.fld_xor_LHI b hi, decide_eq_decide,
    Int.add_lt_add_iff_right]

/-- Settles O46: the borrow vector marks the smaller field, unsigned, and signed where the operands are sign-flipped. -/
theorem minMaxClosedForms : Obligations.MinMaxClosedForms := by
  intro L A B wf
  have ha := L.holds_pattern_fld (wf.conf_conf A)
  have hb := L.holds_pattern_fld (wf.conf_conf B)
  have hsa := L.holds_pattern_sfld (wf.conf_conf A)
  have hsb := L.holds_pattern_sfld (wf.conf_conf B)
  exact ⟨wf.join_min_eq_select ha hb fun _ => wf.getLsbD_top_borrow_natCast _ _,
    wf.join_max_eq_select ha hb fun _ => wf.getLsbD_top_borrow_natCast _ _,
    wf.join_min_eq_select hsa hsb fun _ => wf.getLsbD_top_borrow_xor_LHI _ _,
    wf.join_max_eq_select hsa hsb fun _ => wf.getLsbD_top_borrow_xor_LHI _ _⟩

/-- In each field minimum and maximum are the two operands in some order, and XOR forgets the order (R156). -/
theorem Layout.WF.join_min_xor_join_max (wf : L.WF) (ha : L.Holds a fun i => pattern (u i) (L.width i))
    (hb : L.Holds b fun i => pattern (v i) (L.width i)) :
    (L.join fun i => min (u i) (v i)) ^^^ (L.join fun i => max (u i) (v i)) = a ^^^ b := by
  refine wf.eq_of_holds ((wf.join_holds _).xor (wf.join_holds _)) (ha.xor hb) fun i _ => ?_
  obtain h | h := le_total (u i) (v i)
  · rw [min_eq_left h, max_eq_right h]
  · rw [min_eq_right h, max_eq_left h, Nat.xor_comm]

/-- The wrapping sum forgets the order of the operands too (R156). -/
theorem Layout.WF.addWrap_join_min_join_max (wf : L.WF) (ha : L.Holds a fun i => pattern (u i) (L.width i))
    (hb : L.Holds b fun i => pattern (v i) (L.width i)) :
    L.addWrap (L.join fun i => min (u i) (v i)) (L.join fun i => max (u i) (v i)) = L.addWrap a b := by
  refine wf.eq_of_holds (wf.addWrap_holds _ _) (wf.addWrap_holds a b) fun i hi => ?_
  rw [wf.fld_join _ hi, wf.fld_join _ hi, ha.2 i hi, hb.2 i hi,
    fn_min_add_fn_max (fun z => pattern z (L.width i)) (u i) (v i)]

/-- Settles O47: the laws hold for any reading of the fields, so for the unsigned and the signed pair alike. -/
theorem minMaxLoseNothing : Obligations.MinMaxLoseNothing := by
  intro L a b wf ha hb
  have hua := L.holds_pattern_fld ha
  have hub := L.holds_pattern_fld hb
  have hsa := L.holds_pattern_sfld ha
  have hsb := L.holds_pattern_sfld hb
  simp only [Layout.minUnsigned, Layout.maxUnsigned, Layout.minSigned, Layout.maxSigned, ha, hb]
  exact ⟨wf.join_min_xor_join_max hua hub, wf.join_min_xor_join_max hsa hsb,
    wf.addWrap_join_min_join_max hua hub, wf.addWrap_join_min_join_max hsa hsb⟩

end Sys2Proof.Machine
end

section
/-! `slice` (R165) and the fields of its result under the sub-layout (R166): the sub-layout's fields are fields `first`
to `last - 1` moved down by `LOFF[first]`, as the result's bits are. -/

namespace Sys2Proof.Machine

variable {L : Layout} {first last k : Nat}

theorem slice_hasWord (first last : BitVec 7) :
    (Instr.slice first last).HasWord (0x00000050 ||| first.setWidth 32 <<< 8 ||| last.setWidth 32 <<< 15) :=
  ⟨rfl, BitVec.or_zero⟩

theorem Instr.body_slice {p : Ports} {first last : BitVec 7} :
    Instr.body p (.slice first last) L = L.withRange first last (L.sliceFields p.A) := rfl

theorem Layout.sliceFields_toNat (L : Layout) (a : Word) (first last : Nat) :
    (L.sliceFields a first last).toNat =
      (L.conf a).toNat / 2 ^ L.offset first % 2 ^ (L.widthsBetween first last).sum := by
  have hle : (L.conf a).toNat / 2 ^ L.offset first % 2 ^ (L.widthsBetween first last).sum ≤ (L.conf a).toNat :=
    (Nat.mod_le _ _).trans (Nat.div_le_self _ _)
  rw [Layout.sliceFields, ones, Nat.and_two_pow_sub_one_eq_mod, Nat.shiftRight_eq_div_pow, BitVec.toNat_ofNat,
    Nat.mod_eq_of_lt (hle.trans_lt (L.conf a).isLt)]

/-- Settles O48: a range the layout does not have is refused, and any other is read off the operand's valid bits. -/
theorem sliceExtractsRun : Obligations.SliceExtractsRun := by
  refine ⟨fun first last => decode_eq_ok_iff.mpr (slice_hasWord first last),
    fun s first last => noLayoutFault (.slice first last) s rfl,
    fun s first last hready hbad =>
      hready.exec_of_body_error rfl (Instr.body_slice.trans (Layout.withRange_error hbad _)), ?_⟩
  intro s first last hready hlt hle
  exact ⟨_, hready.exec_slice hlt hle, s.lay.sliceFields_toNat s.ports.A _ _⟩

theorem Layout.widthsBetween_length (L : Layout) (first last : Nat) :
    (L.widthsBetween first last).length = last - first := by
  rw [Layout.widthsBetween, List.length_map, List.length_range]

theorem Layout.take_widthsBetween (L : Layout) (hk : k ≤ last - first) :
    (L.widthsBetween first last).take k = L.widthsBetween first (first + k) := by
  rw [Layout.widthsBetween, ← List.map_take, List.take_range, Nat.min_eq_left hk, Layout.widthsBetween,
    Nat.add_sub_cancel_left]

theorem Layout.WF.subLayout_n (wf : L.WF) (c : Nat) (h : first ≤ last) (h' : last ≤ L.n) :
    (L.subLayout c first last).n = last - first :=
  (deriveLayout_n (wf.widthsBetween_sum_le h h') (wf.widthsBetween_pos h')).trans (L.widthsBetween_length first last)

theorem Layout.WF.subLayout_lsum (wf : L.WF) (c : Nat) (h : first ≤ last) (h' : last ≤ L.n) :
    (L.subLayout c first last).LSUM.toNat = (L.widthsBetween first last).sum :=
  deriveLayout_lsum (wf.widthsBetween_sum_le h h')

theorem Layout.WF.subLayout_width (wf : L.WF) (c : Nat) (h' : last ≤ L.n) (hk : k < last - first) :
    (L.subLayout c first last).width k = L.width (first + k) := by
  rw [Layout.subLayout, deriveLayout_width (wf.widthsBetween_sum_le (by omega) h') (wf.widthsBetween_pos h')
    ((L.widthsBetween_length first last).symm ▸ hk)]
  simp [Layout.widthsBetween]

/-- Field `k` of the sub-layout lies as far above bit 0 as field `first + k` above field `first`. -/
theorem Layout.WF.offset_add_subLayout_offset (wf : L.WF) (c : Nat) (h' : last ≤ L.n) (hk : k < last - first) :
    L.offset first + (L.subLayout c first last).offset k = L.offset (first + k) := by
  rw [Layout.subLayout, deriveLayout_offset (wf.widthsBetween_sum_le (by omega) h') (wf.widthsBetween_pos h')
    ((L.widthsBetween_length first last).symm ▸ hk), L.take_widthsBetween hk.le, wf.offset_eq first (by omega),
    wf.offset_eq (first + k) (by omega), L.widthsBetween_sum (Nat.le_add_right first k)]

/-- A field below bit `r` is in the low `r` bits of a word. -/
theorem mod_two_pow_div_mod_two_pow (x : Nat) {d w r : Nat} (h : d + w ≤ r) :
    x % 2 ^ r / 2 ^ d % 2 ^ w = x / 2 ^ d % 2 ^ w := by
  obtain ⟨e, rfl⟩ := Nat.exists_eq_add_of_le h
  rw [Nat.add_assoc, Nat.pow_add, Nat.mod_mul_right_div_self, Nat.mod_mod_of_dvd _ (Nat.pow_dvd_pow 2 (by omega))]

theorem Layout.WF.fld_sliceFields (wf : L.WF) (a : Word) (c : Nat) (h : first < last) (h' : last ≤ L.n)
    (hk : k < last - first) :
    (L.subLayout c first last).fld (L.sliceFields a first last) k = L.fld a (first + k) := by
  have wf' := wf.subLayout_wf c h h'
  have hend := wf'.end_le (wf.subLayout_n c h.le h' ▸ hk)
  rw [wf.subLayout_lsum c h.le h'] at hend
  rw [Layout.fld_eq, L.sliceFields_toNat, mod_two_pow_div_mod_two_pow _ hend, Nat.div_div_eq_div_mul, ← Nat.pow_add,
    wf.offset_add_subLayout_offset c h' hk, wf.subLayout_width c h' hk, ← L.fld_eq, wf.fld_conf a (by omega)]

theorem Layout.WF.sliceFields_holds (wf : L.WF) (a : Word) (c : Nat) (h : first < last) (h' : last ≤ L.n) :
    (L.subLayout c first last).Holds (L.sliceFields a first last) fun k => L.fld a (first + k) :=
  ⟨wf.subLayout_conf_sliceFields a c h h', fun _ hk => wf.fld_sliceFields a c h h' (wf.subLayout_n c h.le h' ▸ hk)⟩

/-- Settles O49: the result register is all that an accepted `slice` writes, and operand and result are moved by the
same amount as their layouts. -/
theorem sliceFieldsOfSubLayout : Obligations.SliceFieldsOfSubLayout := by
  intro s t first last c hready hlt hle hexec
  have wf := hready.wf
  cases (hready.exec_slice hlt hle).symm.trans hexec
  refine ⟨rfl, rfl, wf.subLayout_wf c hlt hle, fun k hk => ⟨wf.subLayout_width c hle hk, ?_⟩,
    wf.subLayout_n c hlt.le hle, wf.sliceFields_holds s.ports.A c hlt hle⟩
  exact Nat.eq_sub_of_add_eq' (wf.offset_add_subLayout_offset c hle hk)

end Sys2Proof.Machine
end

section
/-! The shifts (R175, R176, R177): each field by itself, the amounts that clear the word, and the closed forms. A field
of a closed form is read off the operand masked to that field and moved as a whole word. -/

namespace Sys2Proof.Machine

variable {L : Layout} {i : Nat}

/-- The formula of R175 gives zero by itself once the amount reaches the field's width. -/
theorem shiftFieldLeft_eq (v n w : Nat) : shiftFieldLeft v n w = v * 2 ^ n % 2 ^ w := by
  unfold shiftFieldLeft
  split_ifs with h
  · exact (Nat.mod_eq_zero_of_dvd (Dvd.dvd.mul_left (Nat.pow_dvd_pow 2 h) v)).symm
  · rfl

/-- The formula of R176 gives zero by itself once the amount reaches the field's width. -/
theorem shiftFieldRight_eq {v w : Nat} (hv : v < 2 ^ w) (n : Nat) : shiftFieldRight v n w = v / 2 ^ n := by
  unfold shiftFieldRight
  split_ifs with h
  · exact (Nat.div_eq_of_lt (hv.trans_le (Nat.pow_le_pow_right (by omega) h))).symm
  · rfl

theorem Layout.WF.shiftLeft_holds (wf : L.WF) (a b : Word) :
    L.Holds (L.shiftLeft a b) fun i => L.fld a i * 2 ^ b.toNat % 2 ^ L.width i :=
  wf.join_natCast_holds (fun i hi => by rw [wf.fld_conf a hi, shiftFieldLeft_eq])
    fun _ _ => Nat.mod_lt _ (Nat.two_pow_pos _)

theorem Layout.WF.shiftRightUnsigned_holds (wf : L.WF) (a b : Word) :
    L.Holds (L.shiftRightUnsigned a b) fun i => L.fld a i / 2 ^ b.toNat :=
  wf.join_natCast_holds (fun i hi => by rw [wf.fld_conf a hi, shiftFieldRight_eq (L.fld_lt a i)])
    fun i _ => (Nat.div_le_self _ _).trans_lt (L.fld_lt a i)

/-- Settles O50: the shifted value, narrowed to its field, is a `join` over the fields. -/
theorem shiftLeftShiftsEachField : Obligations.ShiftLeftShiftsEachField := fun s hready =>
  ⟨_, hready.exec_of_body_ok rfl rfl, hready.wf.shiftLeft_holds s.ports.A s.ports.B⟩

/-- Settles O51: the quotient is no larger than the field it comes from. -/
theorem shiftRightShiftsEachField : Obligations.ShiftRightShiftsEachField := fun s hready =>
  ⟨_, hready.exec_of_body_ok rfl rfl, hready.wf.shiftRightUnsigned_holds s.ports.A s.ports.B⟩

theorem Layout.WF.width_le_lsum (wf : L.WF) (hi : i < L.n) : L.width i ≤ L.LSUM.toNat :=
  (Nat.le_add_left _ _).trans (wf.end_le hi)

theorem Layout.WF.shiftLeft_eq_zero (wf : L.WF) (a : Word) {b : Word} (hb : L.LSUM.toNat ≤ b.toNat) :
    L.shiftLeft a b = 0 :=
  wf.eq_of_holds (wf.shiftLeft_holds a b) L.zero_holds fun i hi =>
    Nat.mod_eq_zero_of_dvd (Dvd.dvd.mul_left (Nat.pow_dvd_pow 2 ((wf.width_le_lsum hi).trans hb)) (L.fld a i))

theorem Layout.WF.shiftRightUnsigned_eq_zero (wf : L.WF) (a : Word) {b : Word} (hb : L.LSUM.toNat ≤ b.toNat) :
    L.shiftRightUnsigned a b = 0 :=
  wf.eq_of_holds (wf.shiftRightUnsigned_holds a b) L.zero_holds fun i hi =>
    Nat.div_eq_of_lt ((L.fld_lt a i).trans_le (Nat.pow_le_pow_right (by omega) ((wf.width_le_lsum hi).trans hb)))

/-- Settles O52: no field is wider than the total width, so that the amount clears every field. -/
theorem largeShiftsClearTheWord : Obligations.LargeShiftsClearTheWord := fun s hready hb =>
  ⟨hready.exec_of_body_ok rfl (congrArg _ (hready.wf.shiftLeft_eq_zero s.ports.A hb)),
    hready.exec_of_body_ok rfl (congrArg _ (hready.wf.shiftRightUnsigned_eq_zero s.ports.A hb))⟩

/-- The keep masks of R175 and R176 take from field `i` of a word `x i` of its own; masking with one masks each field
by its own word. -/
theorem Layout.WF.and_foldl_fieldMask_holds (wf : L.WF) (y : Word) (x : Nat → Word) :
    L.Holds (y &&& (List.range L.n).foldl (fun m i => m ||| (L.fieldMask i &&& x i)) 0) fun i =>
      L.fld (y &&& x i) i := by
  have hword : ∀ j < L.n, L.Holds (L.fieldMask j &&& x j) fun i => if i = j then L.fld (x j) j else 0 := by
    intro j hj
    rw [BitVec.and_comm]
    refine ((wf.fieldMask_holds hj).and_left (x j)).congr fun i _ => ?_
    split_ifs with hij
    · rw [hij, Nat.and_two_pow_sub_one_of_lt_two_pow (L.fld_lt _ j)]
    · exact Nat.and_zero _
  have hmask := L.foldl_or_fields_holds (t := fun _ => True) hword
  simp only [if_true] at hmask
  exact (hmask.and_left y).congr fun i _ => (L.fld_and y (x i) i).symm

theorem Layout.WF.toNat_and_fieldMask (wf : L.WF) (p : Word) (hi : i < L.n) :
    (p &&& L.fieldMask i).toNat = L.fld p i * 2 ^ L.offset i := by
  have hlt : L.fld p i * 2 ^ L.offset i < 2 ^ 64 :=
    calc L.fld p i * 2 ^ L.offset i
        < 2 ^ L.width i * 2 ^ L.offset i := Nat.mul_lt_mul_of_pos_right (L.fld_lt p i) (Nat.two_pow_pos _)
      _ = 2 ^ (L.offset i + L.width i) := by rw [Nat.mul_comm, ← Nat.pow_add]
      _ ≤ 2 ^ 64 := Nat.pow_le_pow_right (by omega) (wf.end_le_64 hi)
  rw [wf.and_fieldMask p hi, BitVec.toNat_ofNat, Nat.shiftLeft_eq, Nat.mod_eq_of_lt hlt]

theorem Layout.WF.fld_and_fieldMask_shiftLeft (wf : L.WF) (p : Word) (n : Nat) (hi : i < L.n) :
    L.fld ((p &&& L.fieldMask i) <<< n) i = L.fld p i * 2 ^ n % 2 ^ L.width i := by
  rw [L.fld_eq, BitVec.toNat_shiftLeft, mod_two_pow_div_mod_two_pow _ (wf.end_le_64 hi), Nat.shiftLeft_eq,
    wf.toNat_and_fieldMask p hi, Nat.mul_right_comm, Nat.mul_div_cancel _ (Nat.two_pow_pos _)]

theorem Layout.WF.fld_and_fieldMask_ushiftRight (wf : L.WF) (p : Word) (n : Nat) (hi : i < L.n) :
    L.fld ((p &&& L.fieldMask i) >>> n) i = L.fld p i / 2 ^ n := by
  rw [L.fld_eq, BitVec.toNat_ushiftRight, Nat.shiftRight_eq_div_pow, wf.toNat_and_fieldMask p hi, Nat.div_right_comm,
    Nat.mul_div_cancel _ (Nat.two_pow_pos _), Nat.mod_eq_of_lt ((Nat.div_le_self _ _).trans_lt (L.fld_lt p i))]

theorem Layout.WF.shiftLeft_eq_closed (wf : L.WF) (a b : Word) : L.shiftLeft a b = L.shiftLeftClosed a b := by
  rw [Layout.shiftLeftClosed]
  split_ifs with hb
  · exact wf.shiftLeft_eq_zero a (wf.lsum_le.trans hb)
  · refine wf.eq_of_holds (wf.shiftLeft_holds a b) (wf.and_foldl_fieldMask_holds _ _) fun i hi => ?_
    rw [← BitVec.shiftLeft_and_distrib, wf.fld_and_fieldMask_shiftLeft _ _ hi, wf.fld_conf a hi]

theorem Layout.WF.shiftRightUnsigned_eq_closed (wf : L.WF) (a b : Word) :
    L.shiftRightUnsigned a b = L.shiftRightUnsignedClosed a b := by
  rw [Layout.shiftRightUnsignedClosed]
  split_ifs with hb
  · exact wf.shiftRightUnsigned_eq_zero a (wf.lsum_le.trans hb)
  · refine wf.eq_of_holds (wf.shiftRightUnsigned_holds a b) (wf.and_foldl_fieldMask_holds _ _) fun i hi => ?_
    rw [← BitVec.ushiftRight_and_distrib, wf.fld_and_fieldMask_ushiftRight _ _ hi, wf.fld_conf a hi]

/-- Settles O53: in each field the keep mask leaves the bits that come from that field, and those are the shifted
value. -/
theorem shiftClosedForms : Obligations.ShiftClosedForms := fun _ a b wf =>
  ⟨wf.shiftLeft_eq_closed a b, wf.shiftRightUnsigned_eq_closed a b⟩

end Sys2Proof.Machine
end

section
/-! Every command, every step and every run ends in a next state (R227, R223): a fault of the unit is one too (R194). -/

namespace Sys2Proof.Machine

variable {s t : State}

theorem exec_completes (i : Instr) (s : State) : ∃ t, exec i s = .next t := by
  cases i with
  | computeLayout n cw =>
    obtain ⟨c, -, heq⟩ | ⟨-, heq⟩ := execComputeLayout_cases n cw s
    · exact ⟨_, heq⟩
    · exact ⟨_, heq⟩
  | _ => exact ⟨_, exec_compute rfl s⟩

theorem step_completes (s : State) : ∃ t, step s = .next t := by
  obtain ⟨-, heq⟩ | ⟨p, rest, -, -, heq⟩ | ⟨p, rest, -, -, -, heq⟩ | ⟨p, rest, e, -, -, -, -, heq⟩ |
    ⟨p, rest, i, -, -, -, -, heq⟩ := step_cases s
  case inr.inr.inr.inr => exact heq ▸ exec_completes i (s.sample p rest)
  all_goals exact ⟨_, heq⟩

theorem run_succ_of_step (k : Nat) (h : step s = .next t) : core.run (k + 1) s = core.run k t := by
  have hcore : core.step s = .next t := h
  simp only [Host.Core.run, hcore]

theorem run_completes (k : Nat) (s : State) : ∃ t, core.run k s = .next t := by
  induction k generalizing s with
  | zero => exact ⟨s, rfl⟩
  | succ k ih =>
    obtain ⟨t, hstep⟩ := step_completes s
    rw [run_succ_of_step k hstep]
    exact ih t

/-- Settles O11: each meaning answers a next state, so that no run is cut short. -/
theorem everyCommandCompletes : Obligations.EveryCommandCompletes :=
  ⟨exec_completes, step_completes, run_completes⟩

end Sys2Proof.Machine
end

section
/-! Faults by command (R192, R194): a command's checks raise the codes of its own row, each by the fault entry, and a
command whose checks pass completes. -/

namespace Sys2Proof.Machine

variable {s t : State} {i : Instr} {c : ErrCode}

theorem Layout.eq_index_of_withField_error {L : Layout} {k : BitVec 7} {v : Nat → Word}
    (h : L.withField k v = .error c) : c = .index := by
  obtain hlt | hge := Nat.lt_or_ge k.toNat L.n
  · simp [Layout.withField_lt hlt] at h
  · rw [Layout.withField_ge hge] at h
    cases h
    rfl

theorem Layout.eq_slice_of_withRange_error {L : Layout} {first last : BitVec 7} {v : Nat → Nat → Word}
    (h : L.withRange first last v = .error c) : c = .slice := by
  by_cases hbad : last.toNat ≤ first.toNat ∨ L.n < last.toNat
  · rw [Layout.withRange_error hbad] at h
    cases h
    rfl
  · rw [not_or, Nat.not_le, Nat.not_lt] at hbad
    obtain ⟨hlt, hle⟩ := hbad
    simp [Layout.withRange_ok hlt hle] at h

theorem nolayout_mem_faultCodes (h : Instr.isComputeLayout i = false) : .nolayout ∈ Instr.faultCodes i := by
  cases i with
  | computeLayout => simp [Instr.isComputeLayout] at h
  | layoutRead sel k => cases hsel : sel.indexed <;> simp [Instr.faultCodes, hsel]
  | _ => simp [Instr.faultCodes]

/-- The checks that a command makes under a layout raise no code outside its row of R192. -/
theorem Instr.mem_faultCodes_of_body_error {p : Ports} {L : Layout} (h : Instr.body p i L = .error c) :
    c ∈ Instr.faultCodes i := by
  cases i with
  | layoutRead sel k =>
    cases hsel : sel.indexed with
    | true =>
      rw [Instr.body_layoutRead_of_indexed hsel] at h
      simp [Instr.faultCodes, hsel, Layout.eq_index_of_withField_error h]
    | false => simp [Instr.body_layoutRead_of_scalar hsel] at h
  | unpackUnsigned k =>
    simp [Instr.faultCodes, Layout.eq_index_of_withField_error (Instr.body_unpackUnsigned.symm.trans h)]
  | unpackSigned k =>
    simp [Instr.faultCodes, Layout.eq_index_of_withField_error (Instr.body_unpackSigned.symm.trans h)]
  | slice first last =>
    simp [Instr.faultCodes, Layout.eq_slice_of_withRange_error (Instr.body_slice.symm.trans h)]
  | _ => cases h

theorem mem_faultCodes_of_checkWidths {m : Nat} {ws : List Nat} {n : BitVec 7} {cw : ContainerChoice}
    (h : checkWidths m ws cw = some c) : c ∈ Instr.faultCodes (.computeLayout n cw) := by
  rw [checkWidths] at h
  split_ifs at h <;> cases h <;> simp [Instr.faultCodes]

/-- `t` is `s` after a command that completed (R35): no fault is added, and there are a result and a layout. -/
def State.CompletesTo (s t : State) : Prop :=
  t.FAULT = s.FAULT ∧ t.ERR = s.ERR ∧ t.RVALID = true ∧ t.LVALID = true

/-- Everything a command can do to the fault registers: enter a fault of its own row, or complete. -/
theorem exec_fault_cases (h : exec i s = .next t) :
    (∃ c ∈ Instr.faultCodes i, t = s.takeFault c) ∨ s.CompletesTo t := by
  cases hcompute : Instr.isComputeLayout i with
  | false =>
    cases (exec_compute hcompute s).symm.trans h
    obtain ⟨-, heq⟩ | ⟨c, -, hbody, heq⟩ | ⟨r, hlayout, -, heq⟩ := s.compute_cases (Instr.body s.ports i)
    · exact .inl ⟨.nolayout, nolayout_mem_faultCodes hcompute, heq⟩
    · exact .inl ⟨c, Instr.mem_faultCodes_of_body_error hbody, heq⟩
    · exact .inr (heq ▸ ⟨rfl, rfl, rfl, hlayout⟩)
  | true =>
    cases i with
    | computeLayout n cw =>
      obtain ⟨c, hchecks, heq⟩ | ⟨-, heq⟩ := execComputeLayout_cases n cw s
      · cases heq.symm.trans h
        exact .inl ⟨c, mem_faultCodes_of_checkWidths hchecks, rfl⟩
      · cases heq.symm.trans h
        exact .inr ⟨rfl, rfl, rfl, rfl⟩
    | _ => simp [Instr.isComputeLayout] at hcompute

theorem exec_raises (hfault : s.FAULT = false) (hexec : exec i s = .next t) (ht : t.FAULT = true) :
    ∃ c ∈ Instr.faultCodes i, t = s.takeFault c := by
  obtain hraised | ⟨hkept, -⟩ := exec_fault_cases hexec
  · exact hraised
  · simp [hkept, hfault] at ht

/-- A step that raises a fault found an illegal word or a command whose row has the fault (R192), and entered it. -/
theorem step_raises (hfault : s.FAULT = false) (hstep : step s = .next t) (ht : t.FAULT = true) :
    ∃ p rest c, s.pending = p :: rest ∧ t = (s.sample p rest).takeFault c ∧
      ((IllegalWord p.CMD ∧ c = .illcmd) ∨ ∃ i, decode p.CMD = .ok i ∧ c ∈ Instr.faultCodes i) := by
  obtain ⟨-, heq⟩ | ⟨p, rest, -, -, heq⟩ | ⟨p, rest, -, -, hfault', -⟩ | ⟨p, rest, e, hpending, -, -, hdecode, heq⟩ |
    ⟨p, rest, i, hpending, -, -, hdecode, heq⟩ := step_cases s
  · cases heq.symm.trans hstep
    simp [hfault] at ht
  · cases heq.symm.trans hstep
    simp at ht
  · simp [hfault] at hfault'
  · cases heq.symm.trans hstep
    exact ⟨p, rest, .illcmd, hpending, rfl, .inl ⟨exists_decode_error_iff.mp ⟨e, hdecode⟩, rfl⟩⟩
  · obtain ⟨c, hcode, rfl⟩ := exec_raises (s := s.sample p rest) hfault (heq.symm.trans hstep) ht
    exact ⟨p, rest, c, hpending, rfl, .inr ⟨i, hdecode, hcode⟩⟩

/-- Settles O14: every fault, a command's or an illegal word's, is raised by the one fault entry. -/
theorem faultEntryChangesNothingElse : Obligations.FaultEntryChangesNothingElse := by
  constructor
  · intro i s t hfault hexec ht
    obtain ⟨c, hcode, rfl⟩ := exec_raises hfault hexec ht
    exact ⟨c, s.takeFault_faultEntry c, hcode⟩
  · intro s t hfault hstep ht
    obtain ⟨p, rest, c, hpending, rfl, -⟩ := step_raises hfault hstep ht
    exact ⟨p, rest, c, hpending, (s.sample p rest).takeFault_faultEntry c⟩

/-- Settles O15: `ERR` is the code that the fault entry was made with. -/
theorem onlyListedFaultsOccur : Obligations.OnlyListedFaultsOccur := by
  intro s t hfault hstep ht
  obtain ⟨p, rest, c, hpending, rfl, ⟨hillegal, rfl⟩ | ⟨i, hdecode, hcode⟩⟩ := step_raises hfault hstep ht
  · exact ⟨p, rest, hpending, .inl ⟨hillegal, rfl⟩⟩
  · exact ⟨p, rest, hpending, .inr ⟨i, c, hdecode, hcode, rfl⟩⟩

/-- A command's body has a value wherever the command's own checks pass, whatever data it reads (R198). -/
theorem Instr.body_ok_of_accepted (p : Ports) (h : Instr.Accepted s i) : ∃ r, Instr.body p i s.lay = .ok r := by
  cases i with
  | layoutRead sel k => exact ⟨_, Instr.body_layoutRead_ok h⟩
  | unpackUnsigned k => exact ⟨_, Instr.body_unpackUnsigned.trans (Layout.withField_lt h _)⟩
  | unpackSigned k => exact ⟨_, Instr.body_unpackSigned.trans (Layout.withField_lt h _)⟩
  | slice first last =>
    obtain ⟨hlt, hle⟩ := h
    exact ⟨_, Instr.body_slice.trans (Layout.withRange_ok hlt hle _)⟩
  | _ => exact ⟨_, rfl⟩

/-- Settles O57: with a layout at hand the command finishes with its body's value, or `computeLayout` with the layout it
compiles. -/
theorem acceptedCommandsDoNotFault : Obligations.AcceptedCommandsDoNotFault := by
  intro i s t hfault hlayout haccepted hexec
  cases i with
  | computeLayout n cw =>
    cases (exec_computeLayout_of_accepted haccepted).symm.trans hexec
    exact ⟨hfault, rfl, rfl⟩
  | _ =>
    cases (exec_compute rfl s).symm.trans hexec
    obtain ⟨r, hbody⟩ := Instr.body_ok_of_accepted s.ports haccepted
    rw [State.compute_ok hlayout hbody]
    exact ⟨hfault, rfl, rfl⟩

end Sys2Proof.Machine
end

section
/-! Reset and refusal (R193, R196, R197, R220): a faulted unit takes presentations off the queue and nothing else
changes; the one event that clears `FAULT` or `LVALID` is a presentation with `RESET`. -/

namespace Sys2Proof.Machine

variable {s t : State} {p : Ports} {rest : List Ports}

theorem step_of_pending_nil (h : s.pending = []) : step s = .next s := by
  simp [step, State.take, h]

theorem step_of_reset (hpending : s.pending = p :: rest) (hreset : p.RESET = true) :
    step s = .next (s.sample p rest).applyReset := by
  simp [step, State.take_of_pending_cons hpending, State.takePresentation, hreset]

theorem step_of_fault (hpending : s.pending = p :: rest) (hreset : p.RESET = false) (hfault : s.FAULT = true) :
    step s = .next (s.sample p rest) := by
  simp [step, State.take_of_pending_cons hpending, State.takePresentation, hreset, hfault]

/-- No command clears `LVALID` (R86). -/
theorem exec_LVALID {i : Instr} (hexec : exec i s = .next t) (hlayout : s.LVALID = true) : t.LVALID = true := by
  obtain ⟨c, -, rfl⟩ | ⟨-, -, -, ht⟩ := exec_fault_cases hexec
  · exact hlayout
  · exact ht

/-- Settles O8: of the events of a step, a presentation with `RESET` alone clears `FAULT` or `LVALID`. -/
theorem resetIsTheOnlyWayBack : Obligations.ResetIsTheOnlyWayBack := by
  refine ⟨?_, ?_, fun s => step_of_pending_nil, State.reset_afterReset⟩
  · intro s p rest hpending hreset
    exact ⟨_, step_of_reset hpending hreset, (s.sample p rest).applyReset_afterReset, rfl, rfl⟩
  · intro s t hstep hcleared
    obtain ⟨-, heq⟩ | ⟨p, rest, hpending, hreset, -⟩ | ⟨p, rest, -, -, -, heq⟩ | ⟨p, rest, e, -, -, -, -, heq⟩ |
      ⟨p, rest, i, -, -, hfault, -, heq⟩ := step_cases s
    case inr.inl => exact ⟨p, rest, hpending, hreset⟩
    case inr.inr.inr.inr =>
      obtain ⟨hfault', -⟩ | ⟨hlayout, ht⟩ := hcleared
      · simp [hfault] at hfault'
      · simp [exec_LVALID (s := s.sample p rest) (heq.symm.trans hstep) hlayout] at ht
    all_goals
      cases heq.symm.trans hstep
      simp at hcleared

/-- While no `RESET` is presented a run of a faulted unit changes the ports and the queue alone. -/
theorem run_of_fault (k : Nat) (hfault : s.FAULT = true) (hreset : ∀ p ∈ s.pending, p.RESET = false) :
    ∃ p rest, core.run k s = .next (s.sample p rest) := by
  induction k generalizing s with
  | zero => exact ⟨s.ports, s.pending, rfl⟩
  | succ k ih =>
    cases hpending : s.pending with
    | nil =>
      rw [run_succ_of_step k (step_of_pending_nil hpending)]
      exact ih hfault hreset
    | cons p rest =>
      obtain ⟨hhead, hrest⟩ := List.forall_mem_cons.mp (hpending ▸ hreset)
      rw [run_succ_of_step k (step_of_fault hpending hhead hfault)]
      exact ih (s := s.sample p rest) hfault hrest

/-- Settles O10: a refusal samples the presentation, and under the invariant a faulted unit has no result. -/
theorem faultedUnitRefusesEveryCommand : Obligations.FaultedUnitRefusesEveryCommand := by
  refine ⟨fun s p rest hpending hreset hfault => step_of_fault hpending hreset hfault, ?_⟩
  intro k s hinv hfault hreset
  obtain ⟨p, rest, hrun⟩ := run_of_fault k hfault hreset
  exact ⟨_, hrun, hfault, rfl, hinv.no_result hfault, rfl, rfl, rfl⟩

end Sys2Proof.Machine
end
